-- ==== Sys2Proof/Word.lean ====
section
/-! DEFINITION. The word type of the frame codec block: every datum is one byte (20_memory.md R55). -/

namespace Sys2Proof

/-- A byte, an unsigned value in 0..255 (R6). Its addition is the wrapping `+8` of R7 and R100. -/
abbrev Byte := BitVec 8

end Sys2Proof
end

