-- ==== Sys2Proof/Config.lean ====
section
/-! DEFINITION. The parameters of the block (00_scope.md R5), the opcode values of the Command Catalog
(30_encoding.md R75) and the values no rule fixes. -/

namespace Sys2Proof.Config

/-- `SOF`, the start-of-frame marker: an OPEN parameter, fixed for the life of an instance (R5, R35).
It has no body, so a claim about it holds for every value. (Log 1.) -/
opaque sof : Byte

/-- The values `RST` leaves in the registers R230 calls unspecified: free values, one for each number
drawn from `State.freeTick`. It has no body. (Log 6.) -/
opaque freeByte : Nat → Byte

/-- `HDR_LEN`, the bytes before the payload (R5). -/
abbrev hdrLen : Nat := 8

/-- `TRL_LEN`, the bytes of the trailer (R5). -/
abbrev trlLen : Nat := 2

/-- `MSG_MIN_LENGTH`, the shortest frame (R5). -/
abbrev msgMinLength : Nat := 10

/-- `MAX_PAYLOAD`, the longest payload (R5). -/
abbrev maxPayload : Nat := 65535

/-- `MAX_FRAME`, the longest frame (R5). -/
abbrev maxFrame : Nat := 65545

/-- The value at which `RX_POS` saturates (R30). -/
abbrev posMax : Nat := 131071

/-- `PBUF_SIZE`, the bytes of the payload buffer (R5, R57). -/
abbrev pbufSize : Nat := 65535

/-- `CS_INIT_SUM` (R5, R101; decision D3, log 2). -/
def csInitSum : Byte := 0

/-- `CS_INIT_ADD` (R5, R101; decision D3, log 2). -/
def csInitAdd : Byte := 0

@[simp] theorem hdrLen_eq : hdrLen = 8 := rfl
@[simp] theorem trlLen_eq : trlLen = 2 := rfl
@[simp] theorem msgMinLength_eq : msgMinLength = 10 := rfl
@[simp] theorem maxPayload_eq : maxPayload = 65535 := rfl
@[simp] theorem maxFrame_eq : maxFrame = 65545 := rfl
@[simp] theorem posMax_eq : posMax = 131071 := rfl
@[simp] theorem pbufSize_eq : pbufSize = 65535 := rfl
@[simp] theorem csInitSum_eq : csInitSum = 0 := rfl
@[simp] theorem csInitAdd_eq : csInitAdd = 0 := rfl

/-- Opcode of RefreshNodesInfo (R171). -/
def opRefreshNodesInfo : Byte := 0x00

/-- Opcode of SetDateTime (R172). -/
def opSetDateTime : Byte := 0x01

/-- Opcode of GetNodesInfo (R173). -/
def opGetNodesInfo : Byte := 0x02

/-- Opcode of GetNodesState (R174). -/
def opGetNodesState : Byte := 0x03

/-- Opcode of GetGatewayState (R175). -/
def opGetGatewayState : Byte := 0x04

/-- Opcode of RemoveNodes (R176). -/
def opRemoveNodes : Byte := 0x05

/-- Opcode of CallGatewayFromNode (R177). -/
def opCallGatewayFromNode : Byte := 0x80

/-- Opcode of ReportNodesBatteryLevel (R178). -/
def opReportNodesBatteryLevel : Byte := 0x81

/-- The opcode values the Command Catalog defines (R75). -/
def catalogOpcodes : List Byte :=
  [opRefreshNodesInfo, opSetDateTime, opGetNodesInfo, opGetNodesState, opGetGatewayState,
   opRemoveNodes, opCallGatewayFromNode, opReportNodesBatteryLevel]

end Sys2Proof.Config
end

