-- ==== Sys2Proof/Syntax.lean ====
section
/-! DEFINITION. What the block reacts to: one constructor of `Instr` for each row of
spec/opcode_table.json, the operand forms of the frame rows, and the inputs a host presents. -/

namespace Sys2Proof

/-- The address field: four bytes in wire order, never a number (10_state.md R23, R52). -/
structure Address where
  b0 : Byte
  b1 : Byte
  b2 : Byte
  b3 : Byte
  deriving DecidableEq, Repr

/-- The fields of a frame on the wire other than its opcode (30_encoding.md R70). -/
structure FrameFields where
  /-- byte 0, any value; the block compares it with `SOF` when the chunk ends (R78) -/
  header : Byte
  /-- bytes 1 to 4 -/
  address : Address
  /-- bytes 6 (low) and 7 (high), the number of payload bytes (R73) -/
  payloadLength : BitVec 16
  payload : List Byte
  /-- first trailer byte, `sum` (R51) -/
  trailerSum : Byte
  /-- second trailer byte, `add` (R51) -/
  trailerAdd : Byte
  deriving DecidableEq, Repr

/-- The two ways a frame of a catalog row passes the block. Nothing in the frame says which one it is
(30_encoding.md R75, 43_command_catalog.md R183): it depends on the port at which it is presented. -/
inductive FrameForm where
  /-- The host asks the TX unit to send a frame with this payload (`SEND`, R85; `ENCODE`, R121). -/
  | send (payload : List Byte)
  /-- The transport delivers this frame to the RX unit as one chunk (`RECV`, R85; `RECEIVE`, R144). -/
  | recv (fields : FrameFields)
  deriving DecidableEq, Repr

/-- The rows of spec/opcode_table.json. The nine frame rows are the values of the opcode byte (R75), the
last five the events (R77). -/
inductive Instr where
  /-- opcode `0x00` (R171) -/
  | refreshNodesInfo (form : FrameForm)
  /-- opcode `0x01` (R172) -/
  | setDateTime (form : FrameForm)
  /-- opcode `0x02` (R173) -/
  | getNodesInfo (form : FrameForm)
  /-- opcode `0x03` (R174) -/
  | getNodesState (form : FrameForm)
  /-- opcode `0x04` (R175) -/
  | getGatewayState (form : FrameForm)
  /-- opcode `0x05` (R176) -/
  | removeNodes (form : FrameForm)
  /-- opcode `0x80` (R177) -/
  | callGatewayFromNode (form : FrameForm)
  /-- opcode `0x81` (R178) -/
  | reportNodesBatteryLevel (form : FrameForm)
  /-- every other opcode (R179) -/
  | opOther (opcode : Byte) (form : FrameForm)
  /-- `TX_START(op, n)` (R124) -/
  | txStart (opcode : Byte) (n : BitVec 32)
  /-- `TX_PAYLOAD(b)` (R125) -/
  | txPayload (b : Byte)
  /-- `RX_BYTE(b)` (R148) -/
  | rxByte (b : Byte)
  /-- `RX_END` (R149) -/
  | rxEnd
  /-- `RST` (R230) -/
  | rst
  deriving DecidableEq, Repr

/-- What the host presents to the block, before decoding: the block has no instruction memory
(10_state.md R41), so inputs take the place of instruction words. (Log 3.) -/
inductive Input where
  /-- an event word `W` of 43 bits (R77) -/
  | word (w : BitVec 43)
  /-- one whole chunk of received bytes (R9) -/
  | chunk (bytes : List Byte)
  /-- a request to send a frame with this opcode and payload -/
  | request (opcode : Byte) (payload : List Byte)
  deriving DecidableEq, Repr

end Sys2Proof
end

