-- ==== Sys2Proof/WellFormed.lean ====
section
/-! DEFINITION. Which terms of `Instr` stand for something the encoding tables can write. -/

namespace Sys2Proof

/-- The opcode is one the Command Catalog names (30_encoding.md R75). -/
def isCatalogOpcode (op : Byte) : Bool :=
  Config.catalogOpcodes.contains op

/-- A received frame's length field counts its payload bytes: the frame has length `10 + L` (R70). A
send form has no constraint: `ENCODE` takes any payload and answers `PayloadTooLong` by itself (R121). -/
def FrameForm.wf : FrameForm → Bool
  | .send _ => true
  | .recv fields => fields.payload.length == fields.payloadLength.toNat

/-- `opOther` stands only for opcodes outside the catalog, the lowest priority of R75. The events'
operands have the widths of R77 by their types. -/
def Instr.wf : Instr → Bool
  | .refreshNodesInfo form => form.wf
  | .setDateTime form => form.wf
  | .getNodesInfo form => form.wf
  | .getNodesState form => form.wf
  | .getGatewayState form => form.wf
  | .removeNodes form => form.wf
  | .callGatewayFromNode form => form.wf
  | .reportNodesBatteryLevel form => form.wf
  | .opOther opcode form => !isCatalogOpcode opcode && form.wf
  | .txStart _ _ => true
  | .txPayload _ => true
  | .rxByte _ => true
  | .rxEnd => true
  | .rst => true

end Sys2Proof
end

