-- ==== Sys2Proof/Decode.lean ====
section
/-! DEFINITION. The decoder, total on any input and rejecting by name; after it the encoder, written
from the same tables (30_encoding.md R70 to R77); then the opcode table's own numbering of bits. -/

namespace Sys2Proof

/-- `lo8(v)`, the low byte of a 16-bit value (R7). -/
def lo8 (v : Nat) : Byte := BitVec.ofNat 8 v

/-- `hi8(v)`, the high byte of a 16-bit value (R7). -/
def hi8 (v : Nat) : Byte := BitVec.ofNat 8 (v / 256)

/-- `le16(lo, hi)`, the value of two bytes in little-endian order (R7, R50). -/
def le16 (lo hi : Byte) : Nat := lo.toNat + 256 * hi.toNat

/-- The four address bytes in wire order (R23). -/
def Address.toList (a : Address) : List Byte := [a.b0, a.b1, a.b2, a.b3]

/-- Why an input is no instruction of the table. -/
inductive DecodeError where
  /-- the event code is 0, 5 or 6: no event (R81) -/
  | reservedEventCode (code : BitVec 3)
  /-- the chunk is shorter than the 10 bytes of the shortest frame (R5, R70) -/
  | chunkTooShort
  /-- the chunk's length is not 10 plus its length field (R70) -/
  | chunkLengthDisagrees
  deriving DecidableEq, Repr

/-- The frame row of an opcode: a catalog row where one matches, else the row of lowest priority (R75). -/
def frameInstr (op : Byte) (form : FrameForm) : Instr :=
  if op = Config.opRefreshNodesInfo then .refreshNodesInfo form
  else if op = Config.opSetDateTime then .setDateTime form
  else if op = Config.opGetNodesInfo then .getNodesInfo form
  else if op = Config.opGetNodesState then .getNodesState form
  else if op = Config.opGetGatewayState then .getGatewayState form
  else if op = Config.opRemoveNodes then .removeNodes form
  else if op = Config.opCallGatewayFromNode then .callGatewayFromNode form
  else if op = Config.opReportNodesBatteryLevel then .reportNodesBatteryLevel form
  else .opOther op form

/-- An event word: code in bits 2..0, byte operand in bits 10..3, `n` in bits 42..11; the bits a row
does not use are ignored (R77, R81). -/
def decodeEvent (w : BitVec 43) : Except DecodeError Instr :=
  match (w.extractLsb' 0 3).toNat with
  | 1 => .ok (.txStart (w.extractLsb' 3 8) (w.extractLsb' 11 32))
  | 2 => .ok (.txPayload (w.extractLsb' 3 8))
  | 3 => .ok (.rxByte (w.extractLsb' 3 8))
  | 4 => .ok .rxEnd
  | 7 => .ok .rst
  | _ => .error (.reservedEventCode (w.extractLsb' 0 3))

/-- The bytes after the header: payload, then the two trailer bytes (R70). -/
def splitBody (len : Nat) (body : List Byte) : Except DecodeError (List Byte × Byte × Byte) :=
  match body.drop len with
  | [s, a] => .ok (body.take len, s, a)
  | _ => .error .chunkLengthDisagrees

/-- A received chunk as a frame of the format `FRAME` (R70, R56). The row is told by the opcode byte
alone (R75); the header byte is not compared here, since `SOF` is a parameter (R75). -/
def decodeFrame : List Byte → Except DecodeError Instr
  | h :: a0 :: a1 :: a2 :: a3 :: op :: lo :: hi :: b0 :: b1 :: rest =>
    match splitBody (le16 lo hi) (b0 :: b1 :: rest) with
    | .ok (payload, s, a) =>
      .ok (frameInstr op (.recv
        { header := h, address := ⟨a0, a1, a2, a3⟩, payloadLength := BitVec.ofNat 16 (le16 lo hi)
          payload := payload, trailerSum := s, trailerAdd := a }))
    | .error e => .error e
  | _ => .error .chunkTooShort

/-- The decoder. -/
def decodeInput : Input → Except DecodeError Instr
  | .word w => decodeEvent w
  | .chunk bytes => decodeFrame bytes
  | .request op payload => .ok (frameInstr op (.send payload))

/-- The bytes of a received frame, in offset order (R56). -/
def FrameFields.bytes (op : Byte) (fields : FrameFields) : List Byte :=
  [fields.header] ++ fields.address.toList ++ [op]
    ++ [lo8 fields.payloadLength.toNat, hi8 fields.payloadLength.toNat]
    ++ fields.payload ++ [fields.trailerSum, fields.trailerAdd]

/-- The event word with these fields (R77). -/
def eventWord (code : BitVec 3) (byte : Byte) (n : BitVec 32) : BitVec 43 :=
  n ++ byte ++ code

/-- A frame row as it is presented: a received chunk, or a request to send. -/
def encodeForm (op : Byte) : FrameForm → Input
  | .send payload => .request op payload
  | .recv fields => .chunk (fields.bytes op)

/-- The encoder. The bits a row of R77 ignores are written as zeros. -/
def encodeInstr : Instr → Input
  | .refreshNodesInfo form => encodeForm Config.opRefreshNodesInfo form
  | .setDateTime form => encodeForm Config.opSetDateTime form
  | .getNodesInfo form => encodeForm Config.opGetNodesInfo form
  | .getNodesState form => encodeForm Config.opGetNodesState form
  | .getGatewayState form => encodeForm Config.opGetGatewayState form
  | .removeNodes form => encodeForm Config.opRemoveNodes form
  | .callGatewayFromNode form => encodeForm Config.opCallGatewayFromNode form
  | .reportNodesBatteryLevel form => encodeForm Config.opReportNodesBatteryLevel form
  | .opOther opcode form => encodeForm opcode form
  | .txStart opcode n => .word (eventWord 1 opcode n)
  | .txPayload b => .word (eventWord 2 b 0)
  | .rxByte b => .word (eventWord 3 b 0)
  | .rxEnd => .word (eventWord 4 0 0)
  | .rst => .word (eventWord 7 0 0)

/-- The header word `H` of a chunk: frame byte `k` in bits `8k+7 .. 8k` (R71). A byte the chunk does not
have counts as zero. -/
def headerWord (bytes : List Byte) : BitVec 64 :=
  bytes.getD 7 0 ++ bytes.getD 6 0 ++ bytes.getD 5 0 ++ bytes.getD 4 0
    ++ bytes.getD 3 0 ++ bytes.getD 2 0 ++ bytes.getD 1 0 ++ bytes.getD 0 0

/-- One catalog row of the opcode map: `match` and `mask` over the header word (R75). -/
structure OpcodeRow where
  mnemonic : String
  value : BitVec 64
  mask : BitVec 64
  deriving DecidableEq, Repr

/-- The opcode map's catalog rows, as R75 prints them. -/
def opcodeMap : List OpcodeRow :=
  [⟨"RefreshNodesInfo", 0x0000000000000000, 0x0000FF0000000000⟩,
   ⟨"SetDateTime", 0x0000010000000000, 0x0000FF0000000000⟩,
   ⟨"GetNodesInfo", 0x0000020000000000, 0x0000FF0000000000⟩,
   ⟨"GetNodesState", 0x0000030000000000, 0x0000FF0000000000⟩,
   ⟨"GetGatewayState", 0x0000040000000000, 0x0000FF0000000000⟩,
   ⟨"RemoveNodes", 0x0000050000000000, 0x0000FF0000000000⟩,
   ⟨"CallGatewayFromNode", 0x0000800000000000, 0x0000FF0000000000⟩,
   ⟨"ReportNodesBatteryLevel", 0x0000810000000000, 0x0000FF0000000000⟩]

/-- `(H & mask) = match` (R75). -/
def OpcodeRow.matches (row : OpcodeRow) (h : BitVec 64) : Bool :=
  h &&& row.mask == row.value

/-- The mnemonic of the row an instruction stands for, as spec/opcode_table.json spells it. -/
def Instr.mnemonic : Instr → String
  | .refreshNodesInfo _ => "RefreshNodesInfo"
  | .setDateTime _ => "SetDateTime"
  | .getNodesInfo _ => "GetNodesInfo"
  | .getNodesState _ => "GetNodesState"
  | .getGatewayState _ => "GetGatewayState"
  | .removeNodes _ => "RemoveNodes"
  | .callGatewayFromNode _ => "CallGatewayFromNode"
  | .reportNodesBatteryLevel _ => "ReportNodesBatteryLevel"
  | .opOther _ _ => "OP_OTHER"
  | .txStart _ _ => "TX_START"
  | .txPayload _ => "TX_PAYLOAD"
  | .rxByte _ => "RX_BYTE"
  | .rxEnd => "RX_END"
  | .rst => "RST"

/-- The number is an event word: it fits 43 bits and its code is not reserved (R77). -/
def isEventNumber (w : Nat) : Bool :=
  decide (w < 2 ^ 43) && [1, 2, 3, 4, 7].contains (w % 8)

/-- The frame whose first bytes are the bits of `w`, bit 0 first, as many as its own length field asks
for; bits above the table's are zero (R71, R72). -/
def frameBytesOfNumber (w : Nat) : List Byte :=
  (List.range (Config.msgMinLength + w / 2 ^ 48 % 65536)).map
    fun k => BitVec.ofNat 8 (w / 2 ^ (8 * k))

/-- An instruction's bits, numbered as spec/opcode_table.json numbers them, as the input that carries
them: an event word or a received chunk. The table has two formats and no bit that tells them apart, so
the count of bits does. (Log 10.) -/
def tableInput (nbits w : Nat) : Input :=
  if nbits < 48 || (nbits == 48 && isEventNumber w) then .word (BitVec.ofNat 43 w)
  else .chunk (frameBytesOfNumber w)

/-- The instruction the decoder reads from an instruction whose bits are `w`. -/
def decodeTableWord (nbits w : Nat) : Option Instr :=
  match decodeInput (tableInput nbits w) with
  | .ok i => some i
  | .error _ => none

end Sys2Proof
end

