-- ==== Sys2Proof/Machine/State.lean ====
section
/-! DEFINITION. The state of the block as plain data (10_state.md R20, R21), the reasons a step stops,
and the state after reset (70_reset_and_hazards.md R230, R231). -/

namespace Sys2Proof.Machine

/-- `TX_STATUS` (10_state.md R36). -/
inductive TxStatus where
  /-- code 0 -/
  | ok
  /-- code 1 (R122) -/
  | payloadTooLong
  deriving DecidableEq, Repr

/-- `RX_DSTAT`, the decode status (R36). -/
inductive DecodeStatus where
  /-- code 0 -/
  | ok
  /-- code 1 -/
  | frameTooShort
  /-- code 2 -/
  | badHeader
  /-- code 3 -/
  | lengthMismatch
  deriving DecidableEq, Repr

/-- The values of the view `RX_STATUS`, the receive status (R36). -/
inductive RxStatus where
  /-- code 0 -/
  | ok
  /-- code 1 -/
  | frameTooShort
  /-- code 2 -/
  | badHeader
  /-- code 3 -/
  | lengthMismatch
  /-- code 4 -/
  | checksumMismatch
  deriving DecidableEq, Repr

/-- A checksum engine: its two accumulators (10_state.md R38). -/
structure Cse where
  sum : Byte
  add : Byte
  deriving DecidableEq, Repr

/-- The payload buffer: address and byte, addresses strictly rising and below 65535; an address that is
not listed holds no value a claim may use (10_state.md R40; log 7). -/
abbrev Memory := List Host.Cell

/-- The TX unit (10_state.md R21). -/
structure TxUnit where
  /-- `TX_BUSY` -/
  busy : Bool
  /-- `TX_REM` -/
  rem : BitVec 16
  /-- `TX_SUM`, `TX_ADD` -/
  cse : Cse
  /-- `TX_STATUS` -/
  status : TxStatus
  /-- `TX_OUT` as recorded so far, in emit order; no step reads it (R41; log 11) -/
  out : List Byte
  deriving DecidableEq, Repr

/-- The RX unit (10_state.md R21). -/
structure RxUnit where
  /-- `RX_POS` -/
  pos : BitVec 17
  /-- `RX_HDR` -/
  hdr : Byte
  /-- `RX_ADDR[0]`..`RX_ADDR[3]` -/
  addr : Address
  /-- `RX_OPCODE` -/
  opcode : Byte
  /-- `RX_LEN_LO` -/
  lenLo : Byte
  /-- `RX_LEN_HI` -/
  lenHi : Byte
  /-- `RX_D0` -/
  d0 : Byte
  /-- `RX_D1` -/
  d1 : Byte
  /-- `RX_SUM`, `RX_ADD` -/
  cse : Cse
  /-- `RX_VALID` -/
  valid : Bool
  /-- `RX_DSTAT` -/
  dstat : DecodeStatus
  /-- `RX_CSOK` -/
  csok : Bool
  /-- `PBUF` -/
  pbuf : Memory
  deriving DecidableEq, Repr

/-- The whole machine. The two units share nothing (10_state.md R20). -/
structure State where
  tx : TxUnit
  rx : RxUnit
  /-- what the host has still to present, first first (log 3) -/
  inputs : List Input
  /-- how many free values `RST` has drawn (log 6) -/
  freeTick : Nat
  deriving DecidableEq, Repr

/-- No fault exists: no access can fault (20_memory.md R64) and no error stops the block
(60_exceptions.md R206). -/
inductive Fault where
  deriving DecidableEq, Repr

/-- Why a step has no meaning. -/
inductive Refusal where
  /-- An instruction that has no meaning yet; raised by `exec`. Safe: the model stops. -/
  | notModelled (mnemonic : String)
  /-- `TX_START`, or a request to send, while `TX_BUSY = 1`; raised by `execTxStart` and the send form of
  the frame rows. The spec defines nothing here and asks a model to refuse (41_encoder.md R127,
  70_reset_and_hazards.md R240). Safe: the model stops. -/
  | txStartWhileBusy
  /-- `TX_PAYLOAD` while `TX_BUSY = 0`; raised by `execTxPayload` (R127). Safe: the model stops. -/
  | txPayloadWhileIdle
  deriving DecidableEq, Repr

/-- The TX unit after reset (R21, R230). -/
def TxUnit.reset : TxUnit :=
  { busy := false, rem := 0, cse := ⟨0, 0⟩, status := .ok, out := [] }

/-- The RX unit after reset (R21, R230). The spec gives no value to `hdr`, `addr`, `opcode`, `lenLo`,
`lenHi`, `d0`, `d1`: zero is the model's choice (log 5); `pbuf` lists nothing (log 7). -/
def RxUnit.reset : RxUnit :=
  { pos := 0, hdr := 0, addr := ⟨0, 0, 0, 0⟩, opcode := 0, lenLo := 0, lenHi := 0, d0 := 0, d1 := 0
    cse := ⟨0, 0⟩, valid := false, dstat := .ok, csok := false, pbuf := [] }

/-- The machine right after reset (R231). No input is presented yet (log 18). -/
def State.reset : State :=
  { tx := .reset, rx := .reset, inputs := [], freeTick := 0 }

end Sys2Proof.Machine
end

