-- ==== Sys2Proof/Machine/Checksum.lean ====
section
/-! DEFINITION. The checksum engine (40_checksum.md): the serial operations on an accumulator pair and the
pure functions `COMPUTE` and `VERIFY`. -/

namespace Sys2Proof.Machine

/-- `CS_INIT` (R101). -/
def csInit : Cse := ⟨Config.csInitSum, Config.csInitAdd⟩

/-- `CS_ABSORB(b)` (R102): `add` takes the new value of `sum`. -/
def csAbsorb (b : Byte) (c : Cse) : Cse :=
  let s := c.sum + b
  ⟨s, c.add + s⟩

/-- `CS_RESULT` (R103): the two trailer bytes, `sum` first. -/
def csResult (c : Cse) : List Byte := [c.sum, c.add]

/-- `COMPUTE(X)` (R104): the bytes absorbed from first to last. -/
def compute (x : List Byte) : Cse := x.foldl (fun c b => csAbsorb b c) csInit

/-- `VERIFY(B)` (R107): the trailer is the last two bytes of the buffer, and covers all before it. -/
def verify (b : List Byte) : Bool :=
  if b.length < 2 then false
  else b.drop (b.length - 2) == csResult (compute (b.take (b.length - 2)))

end Sys2Proof.Machine
end

