-- ==== Sys2Proof/Machine/Ops.lean ====
section
/-! DEFINITION. The shared operations over `PBUF` and the registers: memory access, emission, the verifier's
delay line, the reporting of an error (the block's "trap entry", R205), and the free values of `RST`. -/

namespace Sys2Proof.Machine

/-- `MemRead(a, 1)` (R8, R147): the byte listed at `a`; a byte no write has made has no value. -/
def Memory.read : Memory → Nat → Option Byte
  | [], _ => none
  | (k, v) :: rest, a => if k = a then some v else Memory.read rest a

/-- `MemWrite(a, 1, v)` (R8, R146), keeping the addresses rising. -/
def Memory.write : Memory → Nat → Byte → Memory
  | [], a, v => [(a, v)]
  | (k, x) :: rest, a, v =>
    if a < k then (a, v) :: (k, x) :: rest
    else if a = k then (a, v) :: rest
    else (k, x) :: Memory.write rest a v

/-- The canonical form: addresses strictly rising, each below `PBUF_SIZE` (R57). An unlisted address has no
value, so no entry can equal one. -/
abbrev Memory.wf (m : Memory) : Prop :=
  m.Pairwise (fun x y => x.1 < y.1) ∧ ∀ c ∈ m, c.1 < Config.pbufSize

/-- `emit` of some bytes in order (R8, R41). -/
def TxUnit.emit (bytes : List Byte) (tx : TxUnit) : TxUnit :=
  { tx with out := tx.out ++ bytes }

/-- The saturating increment of `RX_POS` (R30). -/
def nextPos (p : BitVec 17) : BitVec 17 :=
  BitVec.ofNat 17 (min (p.toNat + 1) Config.posMax)

/-- `V_INIT` on the RX unit (R109). -/
def RxUnit.vInit (rx : RxUnit) : RxUnit :=
  { rx with cse := csInit, pos := 0 }

/-- `V_BYTE(b)` on the RX unit (R109): the oldest held byte leaves the delay line into the sums. -/
def RxUnit.vByte (b : Byte) (rx : RxUnit) : RxUnit :=
  { rx with
    cse := if 2 ≤ rx.pos.toNat then csAbsorb rx.d0 rx.cse else rx.cse
    d0 := rx.d1
    d1 := b
    pos := nextPos rx.pos }

/-- `V_END` on the RX unit (R110). -/
def RxUnit.vEnd (rx : RxUnit) : Bool :=
  if rx.pos.toNat < 2 then false else rx.cse.sum == rx.d0 && rx.cse.add == rx.d1

/-- The receive side's "trap entry" (R205), the same for an error as for `OK`: the two results are
recorded, `RX_VALID` is set, and the unit is ready for the next chunk. Nothing is saved and control goes
nowhere; there is no return (R206). -/
def RxUnit.report (d : DecodeStatus) (c : Bool) (rx : RxUnit) : RxUnit :=
  { rx with dstat := d, csok := c, valid := true }.vInit

/-- The transmit side's error (R122, R205): `TX_STATUS` and nothing else. -/
def TxUnit.reportTooLong (tx : TxUnit) : TxUnit :=
  { tx with status := .payloadTooLong }

/-- How many registers `RST` leaves unspecified (R230), `PBUF` apart. -/
def freeRegisters : Nat := 10

/-- `RST` on the TX unit (R230). The bytes already emitted stay emitted (R232). -/
def TxUnit.clear (tx : TxUnit) : TxUnit :=
  { busy := false, rem := 0, cse := csInit, status := .ok, out := tx.out }

/-- `RST` on the RX unit (R230). The registers the rule leaves unspecified take free values, numbered from
`tick`; `PBUF` has no value anywhere (log 6, log 7). -/
def RxUnit.cleared (tick : Nat) : RxUnit :=
  { pos := 0
    hdr := Config.freeByte tick
    addr := ⟨Config.freeByte (tick + 1), Config.freeByte (tick + 2), Config.freeByte (tick + 3),
      Config.freeByte (tick + 4)⟩
    opcode := Config.freeByte (tick + 5)
    lenLo := Config.freeByte (tick + 6)
    lenHi := Config.freeByte (tick + 7)
    d0 := Config.freeByte (tick + 8)
    d1 := Config.freeByte (tick + 9)
    cse := csInit
    valid := false
    dstat := .ok
    csok := false
    pbuf := [] }

end Sys2Proof.Machine
end

