-- ==== Sys2Proof/Machine/Operands.lean ====
section
/-! DEFINITION. Where the byte operand of `RX_BYTE` goes, by its offset in the chunk (42_decoder.md R146,
R148; 20_memory.md R56), and the eight header bytes the TX unit sends (41_encoder.md R121, R124). -/

namespace Sys2Proof.Machine

/-- The view `RX_LEN`, a number below 65536 (10_state.md R21, R50). -/
def RxUnit.len (rx : RxUnit) : Nat := le16 rx.lenLo rx.lenHi

/-- `RX_ADDR[i] <- b`; `i` is in 0..3. -/
def setAddr (i : Nat) (b : Byte) (a : Address) : Address :=
  if i = 0 then { a with b0 := b }
  else if i = 1 then { a with b1 := b }
  else if i = 2 then { a with b2 := b }
  else { a with b3 := b }

/-- The address in `PBUF` at which the byte of offset `p` is stored, if it is (R146). -/
def RxUnit.storeAddress (p : Nat) (rx : RxUnit) : Option Nat :=
  if 8 ≤ p ∧ p - 8 < rx.len then some (p - 8) else none

/-- The field register or the `PBUF` byte that the byte of offset `p` is written to (R148). -/
def RxUnit.storeByte (p : Nat) (b : Byte) (rx : RxUnit) : RxUnit :=
  if p = 0 then { rx with hdr := b }
  else if p ≤ 4 then { rx with addr := setAddr (p - 1) b rx.addr }
  else if p = 5 then { rx with opcode := b }
  else if p = 6 then { rx with lenLo := b }
  else if p = 7 then { rx with lenHi := b }
  else
    match rx.storeAddress p with
    | some a => { rx with pbuf := rx.pbuf.write a b }
    | none => rx

/-- The bytes before the payload: `SOF`, four zero address bytes, the opcode, the length (R121). -/
def frameHeader (sof op : Byte) (len : Nat) : List Byte :=
  [sof, 0x00, 0x00, 0x00, 0x00, op, lo8 len, hi8 len]

end Sys2Proof.Machine
end

