-- ==== Sys2Proof/Machine/Flags.lean ====
section
/-! DEFINITION. The statuses: their codes, the decode status of a chunk that ends, and the view
`RX_STATUS` (10_state.md R36, 60_exceptions.md R201, R203). -/

namespace Sys2Proof.Machine

/-- The 1-bit code of `TX_STATUS` (R36). -/
def TxStatus.code : TxStatus → BitVec 1
  | .ok => 0
  | .payloadTooLong => 1

/-- The 2-bit code of `RX_DSTAT` (R36). -/
def DecodeStatus.code : DecodeStatus → BitVec 2
  | .ok => 0
  | .frameTooShort => 1
  | .badHeader => 2
  | .lengthMismatch => 3

/-- The 3-bit code of `RX_STATUS` (R36). -/
def RxStatus.code : RxStatus → BitVec 3
  | .ok => 0
  | .frameTooShort => 1
  | .badHeader => 2
  | .lengthMismatch => 3
  | .checksumMismatch => 4

/-- The first status that applies: a decode error, else the checksum's (R203). -/
def rxStatusOf (d : DecodeStatus) (csok : Bool) : RxStatus :=
  match d with
  | .frameTooShort => .frameTooShort
  | .badHeader => .badHeader
  | .lengthMismatch => .lengthMismatch
  | .ok => if csok then .ok else .checksumMismatch

/-- The view `RX_STATUS` (R21). -/
def RxUnit.status (rx : RxUnit) : RxStatus := rxStatusOf rx.dstat rx.csok

/-- The decode status of the chunk that ends here, the tests in the order of R149. -/
def RxUnit.decodeStatus (sof : Byte) (rx : RxUnit) : DecodeStatus :=
  if rx.pos.toNat < Config.msgMinLength then .frameTooShort
  else if rx.hdr ≠ sof then .badHeader
  else if rx.pos.toNat ≠ Config.msgMinLength + rx.len then .lengthMismatch
  else .ok

end Sys2Proof.Machine
end

