-- ==== Sys2Proof/Machine/Codec.lean ====
section
/-! DEFINITION. The source's own functions over whole byte sequences: `ENCODE` (41_encoder.md R121),
`DECODE` (42_decoder.md R141) and `RECEIVE` (R144). They are normative; the units realise them byte by
byte. The marker is an argument, so that they can be used with any value of `SOF`. -/

namespace Sys2Proof.Machine

/-- The slice `B[i..j)` (00_scope.md R6). -/
def slice (b : List Byte) (i j : Nat) : List Byte := (b.drop i).take (j - i)

/-- What `DECODE` returns (R141). -/
structure FrameView where
  address : Address
  opcode : Byte
  payloadLength : Nat
  payload : List Byte
  checksumPair : Byte × Byte
  deriving DecidableEq, Repr

/-- `ENCODE(op, P)` (R121). -/
def encodeFrame (sof op : Byte) (payload : List Byte) : Except TxStatus (List Byte) :=
  if payload.length > Config.maxPayload then .error .payloadTooLong
  else
    let f := frameHeader sof op payload.length ++ payload
    .ok (f ++ csResult (compute f))

/-- `DECODE(B)`, the tests in the order of R141 and R142. -/
def decodeChunk (sof : Byte) (b : List Byte) : Except DecodeStatus FrameView :=
  if b.length < Config.msgMinLength then .error .frameTooShort
  else if b.getD 0 0 ≠ sof then .error .badHeader
  else
    let len := le16 (b.getD 6 0) (b.getD 7 0)
    if b.length ≠ Config.msgMinLength + len then .error .lengthMismatch
    else .ok
      { address := ⟨b.getD 1 0, b.getD 2 0, b.getD 3 0, b.getD 4 0⟩
        opcode := b.getD 5 0
        payloadLength := len
        payload := slice b 8 (8 + len)
        checksumPair := (b.getD (8 + len) 0, b.getD (9 + len) 0) }

/-- A decode status as a receive status. -/
def DecodeStatus.toRx (d : DecodeStatus) : RxStatus := rxStatusOf d true

/-- `RECEIVE(B)` (R144): decode, then verify. -/
def receive (sof : Byte) (b : List Byte) : Except RxStatus FrameView :=
  match decodeChunk sof b with
  | .error e => .error e.toRx
  | .ok f => if verify b then .ok f else .error .checksumMismatch

/-- The decode status as `RX_DSTAT` records it (R155). -/
def decodeCode (sof : Byte) (b : List Byte) : DecodeStatus :=
  match decodeChunk sof b with
  | .error e => e
  | .ok _ => .ok

/-- The receive status as `RX_STATUS` shows it (R155). -/
def receiveCode (sof : Byte) (b : List Byte) : RxStatus :=
  match receive sof b with
  | .error e => e
  | .ok _ => .ok

end Sys2Proof.Machine
end

