-- ==== Sys2Proof/Machine/Rx.lean ====
section
/-! DEFINITION. The RX unit's events (42_decoder.md R148 to R150), legal in every state. -/

namespace Sys2Proof.Machine

/-- `RX_BYTE(b)` on the RX unit (R148): the delay line, `RX_VALID`, and the field of the byte's offset. -/
def RxUnit.byte (b : Byte) (rx : RxUnit) : RxUnit :=
  { rx.vByte b with valid := false }.storeByte rx.pos.toNat b

/-- `RX_END` on the RX unit (R149). -/
def RxUnit.endChunk (sof : Byte) (rx : RxUnit) : RxUnit :=
  rx.report (rx.decodeStatus sof) rx.vEnd

/-- `RECV` on the RX unit (R85): a byte event for each byte, then the end of the chunk. -/
def RxUnit.chunk (sof : Byte) (bytes : List Byte) (rx : RxUnit) : RxUnit :=
  (bytes.foldl (fun r b => r.byte b) rx).endChunk sof

/-- `RX_BYTE(b)` (R148). -/
def execRxByte (b : Byte) (s : State) : Host.Outcome State Fault Refusal :=
  .next { s with rx := s.rx.byte b }

/-- `RX_END` (R149). -/
def execRxEnd (s : State) : Host.Outcome State Fault Refusal :=
  .next { s with rx := s.rx.endChunk Config.sof }

end Sys2Proof.Machine
end

