-- ==== Sys2Proof/Machine/Tx.lean ====
section
/-! DEFINITION. The TX unit's events (41_encoder.md R123 to R127). -/

namespace Sys2Proof.Machine

/-- An accepted or refused `TX_START(op, n)` on the TX unit (R124). -/
def TxUnit.start (sof op : Byte) (n : BitVec 32) (tx : TxUnit) : TxUnit :=
  if n.toNat > Config.maxPayload then tx.reportTooLong
  else
    let hd := frameHeader sof op n.toNat
    let c := compute hd
    if n = 0 then
      { tx.emit (hd ++ csResult c) with status := .ok, cse := ⟨0, 0⟩, rem := 0, busy := false }
    else
      { tx.emit hd with status := .ok, cse := c, rem := BitVec.ofNat 16 n.toNat, busy := true }

/-- `TX_PAYLOAD(b)` on the TX unit (R125). The decrement of a `TX_REM` that is 0 while `TX_BUSY` is 1 wraps;
no run reaches such a state (log 13). -/
def TxUnit.payload (b : Byte) (tx : TxUnit) : TxUnit :=
  let c := csAbsorb b tx.cse
  if tx.rem = 1 then
    { tx.emit (b :: csResult c) with cse := ⟨0, 0⟩, rem := 0, busy := false }
  else
    { tx.emit [b] with cse := c, rem := tx.rem - 1 }

/-- `TX_START(op, n)` (R124); refused in `TX_DATA` (R127). -/
def execTxStart (op : Byte) (n : BitVec 32) (s : State) : Host.Outcome State Fault Refusal :=
  if s.tx.busy then .refused .txStartWhileBusy
  else .next { s with tx := s.tx.start Config.sof op n }

/-- `TX_PAYLOAD(b)` (R125); refused in `TX_IDLE` (R127). -/
def execTxPayload (b : Byte) (s : State) : Host.Outcome State Fault Refusal :=
  if s.tx.busy then .next { s with tx := s.tx.payload b }
  else .refused .txPayloadWhileIdle

end Sys2Proof.Machine
end

