-- ==== Sys2Proof/Machine/Catalog.lean ====
section
/-! DEFINITION. The frame rows (30_encoding.md R75, 43_command_catalog.md R170 to R179). The block is
transparent to the opcode (R76), so each row is the one shared operation with its own opcode byte. (Log 4.) -/

namespace Sys2Proof.Machine

/-- The block sends a frame (`SEND`, R85; `ENCODE`, R121, R128): `TX_START`, then a `TX_PAYLOAD` for each
payload byte. A payload that is too long is refused by status, and nothing is emitted (R122). -/
def sendFrame (op : Byte) (payload : List Byte) (s : State) : Host.Outcome State Fault Refusal :=
  if s.tx.busy then .refused .txStartWhileBusy
  else if payload.length > Config.maxPayload then .next { s with tx := s.tx.reportTooLong }
  else .next { s with
    tx := payload.foldl (fun t b => t.payload b)
      (s.tx.start Config.sof op (BitVec.ofNat 32 payload.length)) }

/-- The block receives a chunk (`RECV`, R85; `RECEIVE`, R144). -/
def receiveBytes (bytes : List Byte) (s : State) : Host.Outcome State Fault Refusal :=
  .next { s with rx := s.rx.chunk Config.sof bytes }

/-- A frame with opcode `op` passes the block, in the form it is presented in. -/
def passFrame (op : Byte) (form : FrameForm) (s : State) : Host.Outcome State Fault Refusal :=
  match form with
  | .send payload => sendFrame op payload s
  | .recv fields => receiveBytes (fields.bytes op) s

/-- RefreshNodesInfo (R171). -/
def execRefreshNodesInfo (form : FrameForm) (s : State) : Host.Outcome State Fault Refusal :=
  passFrame Config.opRefreshNodesInfo form s

/-- SetDateTime (R172). -/
def execSetDateTime (form : FrameForm) (s : State) : Host.Outcome State Fault Refusal :=
  passFrame Config.opSetDateTime form s

/-- GetNodesInfo (R173). -/
def execGetNodesInfo (form : FrameForm) (s : State) : Host.Outcome State Fault Refusal :=
  passFrame Config.opGetNodesInfo form s

/-- GetNodesState (R174). -/
def execGetNodesState (form : FrameForm) (s : State) : Host.Outcome State Fault Refusal :=
  passFrame Config.opGetNodesState form s

/-- GetGatewayState (R175). -/
def execGetGatewayState (form : FrameForm) (s : State) : Host.Outcome State Fault Refusal :=
  passFrame Config.opGetGatewayState form s

/-- RemoveNodes (R176). -/
def execRemoveNodes (form : FrameForm) (s : State) : Host.Outcome State Fault Refusal :=
  passFrame Config.opRemoveNodes form s

/-- CallGatewayFromNode (R177). -/
def execCallGatewayFromNode (form : FrameForm) (s : State) : Host.Outcome State Fault Refusal :=
  passFrame Config.opCallGatewayFromNode form s

/-- ReportNodesBatteryLevel (R178). -/
def execReportNodesBatteryLevel (form : FrameForm) (s : State) : Host.Outcome State Fault Refusal :=
  passFrame Config.opReportNodesBatteryLevel form s

/-- Every other opcode (R179). -/
def execOpOther (op : Byte) (form : FrameForm) (s : State) : Host.Outcome State Fault Refusal :=
  passFrame op form s

end Sys2Proof.Machine
end

