-- ==== Sys2Proof/Machine/Reset.lean ====
section
/-! DEFINITION. The `RST` event (70_reset_and_hazards.md R230 to R232). -/

namespace Sys2Proof.Machine

/-- `RST` (R230): legal in every state, emits nothing. -/
def execRst (s : State) : Host.Outcome State Fault Refusal :=
  .next { s with tx := s.tx.clear, rx := .cleared s.freeTick, freeTick := s.freeTick + freeRegisters }

end Sys2Proof.Machine
end

