-- ==== Sys2Proof/Machine/Dispatch.lean ====
section
/-! DEFINITION. The one match from a row of the opcode table to its meaning. -/

namespace Sys2Proof.Machine

def exec (i : Instr) (s : State) : Host.Outcome State Fault Refusal :=
  match i with
  | .refreshNodesInfo form => Sys2Proof.Machine.execRefreshNodesInfo form s
  | .setDateTime form => Sys2Proof.Machine.execSetDateTime form s
  | .getNodesInfo form => Sys2Proof.Machine.execGetNodesInfo form s
  | .getNodesState form => Sys2Proof.Machine.execGetNodesState form s
  | .getGatewayState form => Sys2Proof.Machine.execGetGatewayState form s
  | .removeNodes form => Sys2Proof.Machine.execRemoveNodes form s
  | .callGatewayFromNode form => Sys2Proof.Machine.execCallGatewayFromNode form s
  | .reportNodesBatteryLevel form => Sys2Proof.Machine.execReportNodesBatteryLevel form s
  | .opOther opcode form => Sys2Proof.Machine.execOpOther opcode form s
  | .txStart opcode n => Sys2Proof.Machine.execTxStart opcode n s
  | .txPayload b => Sys2Proof.Machine.execTxPayload b s
  | .rxByte b => Sys2Proof.Machine.execRxByte b s
  | .rxEnd => Sys2Proof.Machine.execRxEnd s
  | .rst => Sys2Proof.Machine.execRst s

end Sys2Proof.Machine
end

