-- ==== Sys2Proof/Machine/Fetch.lean ====
section
/-! DEFINITION. How the block takes its next input, and what an input does that is no instruction of the
table. -/

namespace Sys2Proof.Machine

/-- An input that decodes to no instruction. A reserved event word is the absence of an event: nothing
changes (R81). A chunk that is not a frame of the format is received all the same, and the RX unit says what
is wrong with it (R152 to R154; log 14). A request to send always decodes. -/
def takeOther (inp : Input) (s : State) : Host.Outcome State Fault Refusal :=
  match inp with
  | .word _ => .next s
  | .chunk bytes => receiveBytes bytes s
  | .request _ _ => .next s

/-- The next input, taken from the front of the list; the rest stays (R58). -/
def State.takeInput (s : State) : Option (Input × State) :=
  match s.inputs with
  | [] => none
  | inp :: rest => some (inp, { s with inputs := rest })

/-- `s` with an input put before all the others. -/
def State.present (inp : Input) (s : State) : State :=
  { s with inputs := inp :: s.inputs }

end Sys2Proof.Machine
end

