-- ==== Sys2Proof/Machine/Step.lean ====
section
/-! DEFINITION. One step: the block's complete and atomic reaction to the next input (00_scope.md R8). -/

namespace Sys2Proof.Machine

/-- One step. With no input presented nothing happens (log 3). -/
def step (s : State) : Host.Outcome State Fault Refusal :=
  match s.takeInput with
  | none => .next s
  | some (inp, s') =>
    match decodeInput inp with
    | .ok i => exec i s'
    | .error _ => takeOther inp s'

/-- `s` with the instruction whose bits are `w` presented as its very next input. -/
def State.withFetchWord (s : State) (nbits w : Nat) : State :=
  s.present (tableInput nbits w)

end Sys2Proof.Machine
end

