-- ==== Sys2Proof/Machine/HostRead.lean ====
section
/-! DEFINITION. What the host may read, and when (10_state.md R33, R37; 42_decoder.md R145, R147;
93_implementation_defined.md U8). A read is a function of the state: it has no side effect (R55). The
registers R37 calls invisible have no read here. -/

namespace Sys2Proof.Machine

/-- Why a host read has no value. Each is safe: the model answers nothing. (Log 16.) -/
inductive ReadRefusal where
  /-- `RX_VALID = 0`: no result describes a chunk (R33) -/
  | resultNotValid
  /-- the last chunk's status is an error: its registers hold leftovers (R145) -/
  | frameNotOk
  /-- the index is `RX_LEN` or above (R147) -/
  | pastPayload
  /-- no write has made the byte; no run reaches this within the payload of an `OK` chunk (R155) -/
  | neverWritten
  deriving DecidableEq, Repr

/-- `TX_BUSY`. -/
def State.readTxBusy (s : State) : Bool := s.tx.busy

/-- `TX_STATUS`. -/
def State.readTxStatus (s : State) : TxStatus := s.tx.status

/-- `RX_VALID`. -/
def State.readRxValid (s : State) : Bool := s.rx.valid

/-- A value of a result register, which means something only while `RX_VALID = 1`. -/
def State.whenValid {α : Type} (s : State) (v : α) : Except ReadRefusal α :=
  if s.rx.valid then .ok v else .error .resultNotValid

/-- A value of the frame view, which is defined only while `RX_VALID = 1` and `RX_STATUS = 0` (R145). -/
def State.whenOk {α : Type} (s : State) (v : α) : Except ReadRefusal α :=
  if s.rx.valid then (if s.rx.status = .ok then .ok v else .error .frameNotOk) else .error .resultNotValid

/-- `RX_DSTAT`. -/
def State.readRxDstat (s : State) : Except ReadRefusal DecodeStatus := s.whenValid s.rx.dstat

/-- `RX_CSOK`. -/
def State.readRxCsok (s : State) : Except ReadRefusal Bool := s.whenValid s.rx.csok

/-- `RX_STATUS`. -/
def State.readRxStatus (s : State) : Except ReadRefusal RxStatus := s.whenValid s.rx.status

/-- `RX_ADDR[0..3]`, four bytes in wire order. -/
def State.readRxAddr (s : State) : Except ReadRefusal Address := s.whenOk s.rx.addr

/-- `RX_OPCODE`. -/
def State.readRxOpcode (s : State) : Except ReadRefusal Byte := s.whenOk s.rx.opcode

/-- `RX_LEN_LO`. -/
def State.readRxLenLo (s : State) : Except ReadRefusal Byte := s.whenOk s.rx.lenLo

/-- `RX_LEN_HI`. -/
def State.readRxLenHi (s : State) : Except ReadRefusal Byte := s.whenOk s.rx.lenHi

/-- The 16-bit view `RX_LEN`. -/
def State.readRxLen (s : State) : Except ReadRefusal (BitVec 16) := s.whenOk (BitVec.ofNat 16 s.rx.len)

/-- `MemRead(j, 1)`: the byte `PBUF[j]`, for `j < RX_LEN` (R147). -/
def State.readPbuf (j : Nat) (s : State) : Except ReadRefusal Byte :=
  match s.whenOk (s.rx.pbuf.read j) with
  | .error e => .error e
  | .ok none => if j < s.rx.len then .error .neverWritten else .error .pastPayload
  | .ok (some v) => if j < s.rx.len then .ok v else .error .pastPayload

end Sys2Proof.Machine
end

