-- ==== Sys2Proof/Machine/Pseudo.lean ====
section
/-! DEFINITION. Abbreviations of the spec, not features of the hardware: the pseudo-events `SEND` and
`RECV` as lists of events (30_encoding.md R85), and the host's request builders (43_command_catalog.md R180,
R181). -/

namespace Sys2Proof.Machine

/-- `SEND op, P` (R85). DESIGN CHOICE: a payload of `2 ^ 32` bytes or more, which decision D12 puts outside the
model, gives `TX_START` its length modulo `2 ^ 32` (log 22). -/
def sendEvents (op : Byte) (payload : List Byte) : List Instr :=
  .txStart op (BitVec.ofNat 32 payload.length) :: payload.map .txPayload

/-- `RECV B` (R85). -/
def recvEvents (bytes : List Byte) : List Instr :=
  bytes.map .rxByte ++ [.rxEnd]

/-- `ids_le16(ids)` (R181). -/
def idsLe16 : List (BitVec 16) → List Byte
  | [] => []
  | i :: rest => lo8 i.toNat :: hi8 i.toNat :: idsLe16 rest

/-- `requestRefreshNodesInfo()` (R180). -/
def requestRefreshNodesInfo : Instr := .refreshNodesInfo (.send [])

/-- `requestSetDateTime(datetime)` (R180): the date-time is not sent (R172). -/
def requestSetDateTime : Instr := .setDateTime (.send [])

/-- `requestGetNodesInfo(ids)` (R180). -/
def requestGetNodesInfo (ids : List (BitVec 16)) : Instr := .getNodesInfo (.send (idsLe16 ids))

/-- `requestGetNodesState(ids)` (R180). -/
def requestGetNodesState (ids : List (BitVec 16)) : Instr := .getNodesState (.send (idsLe16 ids))

/-- `requestGetGatewayState()` (R180). -/
def requestGetGatewayState : Instr := .getGatewayState (.send [])

/-- `requestRemoveNodes(ids)` (R180). -/
def requestRemoveNodes (ids : List (BitVec 16)) : Instr := .removeNodes (.send (idsLe16 ids))

end Sys2Proof.Machine
end

