-- ==== Sys2Proof/Machine/Run.lean ====
section
/-! DEFINITION. Running a list of instructions, the loop-back pseudo-event, and the output of a step. -/

namespace Sys2Proof.Machine

/-- The instructions in order, stopping at the first that has no next state (20_memory.md R58). -/
def runInstrs : List Instr → State → Host.Outcome State Fault Refusal
  | [], s => .next s
  | i :: rest, s =>
    match exec i s with
    | .next t => runInstrs rest t
    | .fault r => .fault r
    | .refused r => .refused r

/-- `LOOP op, P` (30_encoding.md R85): `SEND`, then `RECV` of exactly the bytes it put on `TX_OUT`.
The length of a payload of `2 ^ 32` bytes or more wraps as in `sendEvents` (log 22). -/
def loopBack (op : Byte) (payload : List Byte) (s : State) : Host.Outcome State Fault Refusal :=
  match runInstrs (sendEvents op payload) s with
  | .next t => runInstrs (recvEvents (t.tx.out.drop s.tx.out.length)) t
  | .fault r => .fault r
  | .refused r => .refused r

/-- The status a step produces (R124, R149). -/
inductive StepStatus where
  | tx (c : TxStatus)
  | rx (c : RxStatus)
  deriving DecidableEq, Repr

/-- The output of a step: a status, if it produces one, and the bytes it emits (R124, R125, R148, R149,
R230). -/
structure StepOutput where
  status : Option StepStatus
  emitted : List Byte
  deriving DecidableEq, Repr

/-- The status of a frame row's step: that of its `TX_START`, or that of its `RX_END`. -/
def formStatus (form : FrameForm) (after : State) : Option StepStatus :=
  match form with
  | .send _ => some (.tx after.tx.status)
  | .recv _ => some (.rx after.rx.status)

/-- The status the step of `i` produces, told from the state after it. -/
def statusOf (i : Instr) (after : State) : Option StepStatus :=
  match i with
  | .refreshNodesInfo form => formStatus form after
  | .setDateTime form => formStatus form after
  | .getNodesInfo form => formStatus form after
  | .getNodesState form => formStatus form after
  | .getGatewayState form => formStatus form after
  | .removeNodes form => formStatus form after
  | .callGatewayFromNode form => formStatus form after
  | .reportNodesBatteryLevel form => formStatus form after
  | .opOther _ form => formStatus form after
  | .txStart _ _ => some (.tx after.tx.status)
  | .txPayload _ => none
  | .rxByte _ => none
  | .rxEnd => some (.rx after.rx.status)
  | .rst => none

/-- The output of the step of `i` from `before` to `after`. -/
def outputOf (i : Instr) (before after : State) : StepOutput :=
  { status := statusOf i after, emitted := after.tx.out.drop before.tx.out.length }

end Sys2Proof.Machine
end

