-- ==== Sys2Proof/Safety.lean ====
section
/-! DEFINITION. The terms claims use: which unit an instruction belongs to, the invariants of the state
(10_state.md R39, R43, R44), and what the receive side owes a chunk (42_decoder.md R155). -/

namespace Sys2Proof.Machine

/-- The unit a frame row acts on. -/
def formIsTx : FrameForm → Bool
  | .send _ => true
  | .recv _ => false

/-- The instruction is one of the TX unit's; `RST` is of neither unit alone (20_memory.md R59). -/
def isTx : Instr → Bool
  | .refreshNodesInfo form => formIsTx form
  | .setDateTime form => formIsTx form
  | .getNodesInfo form => formIsTx form
  | .getNodesState form => formIsTx form
  | .getGatewayState form => formIsTx form
  | .removeNodes form => formIsTx form
  | .callGatewayFromNode form => formIsTx form
  | .reportNodesBatteryLevel form => formIsTx form
  | .opOther _ form => formIsTx form
  | .txStart _ _ => true
  | .txPayload _ => true
  | .rxByte _ => false
  | .rxEnd => false
  | .rst => false

/-- The instruction is one of the RX unit's. -/
def isRx (i : Instr) : Bool := !isTx i && i != .rst

/-- The TX unit's invariant (R44): busy exactly while bytes are owed; everything 0 while idle. -/
def TxUnit.inv (tx : TxUnit) : Prop :=
  (tx.busy = true ↔ 1 ≤ tx.rem.toNat) ∧ (tx.busy = false → tx.cse = ⟨0, 0⟩)

/-- The RX unit is between chunks (R39, R43 with `k = 0`). -/
def RxUnit.idle (rx : RxUnit) : Prop := rx.pos = 0 ∧ rx.cse = csInit

/-- The RX unit's invariant: nothing is absorbed before the third byte (R109), a result stands only between
chunks (R150), and the payload buffer keeps its canonical form. -/
def RxUnit.inv (rx : RxUnit) : Prop :=
  (rx.pos.toNat ≤ 2 → rx.cse = csInit) ∧ (rx.valid = true → rx.pos = 0) ∧ rx.pbuf.wf

/-- The invariant of the whole machine. -/
def State.inv (s : State) : Prop := s.tx.inv ∧ s.rx.inv

/-- The RX unit after the bytes `b` of a chunk (R43). -/
structure RxUnit.Holds (b : List Byte) (rx : RxUnit) : Prop where
  pos : rx.pos.toNat = min b.length Config.posMax
  valid : 1 ≤ b.length → rx.valid = false
  cse : rx.cse = compute (b.take (b.length - 2))
  d1 : 1 ≤ b.length → b[b.length - 1]? = some rx.d1
  d0 : 2 ≤ b.length → b[b.length - 2]? = some rx.d0
  hdr : 1 ≤ b.length → b[0]? = some rx.hdr
  addr : ∀ i, i < 4 → 2 + i ≤ b.length → b[1 + i]? = rx.addr.toList[i]?
  opcode : 6 ≤ b.length → b[5]? = some rx.opcode
  lenLo : 7 ≤ b.length → b[6]? = some rx.lenLo
  lenHi : 8 ≤ b.length → b[7]? = some rx.lenHi
  pbuf : ∀ j, 9 + j ≤ b.length → j < le16 (b.getD 6 0) (b.getD 7 0) → rx.pbuf.read j = b[8 + j]?

/-- What the RX unit shows after the chunk `b` (R155): the results of `DECODE` and `VERIFY`, the status of
`RECEIVE`, and on `OK` the frame view. -/
structure RxUnit.Shows (b : List Byte) (rx : RxUnit) : Prop where
  valid : rx.valid = true
  dstat : rx.dstat = decodeCode Config.sof b
  csok : rx.csok = verify b
  status : rx.status = receiveCode Config.sof b
  view : ∀ f, receive Config.sof b = .ok f →
    rx.addr = f.address ∧ rx.opcode = f.opcode ∧ rx.len = f.payloadLength
      ∧ f.payload.length = f.payloadLength ∧ ∀ j, j < rx.len → rx.pbuf.read j = f.payload[j]?

/-- The TX unit idle after an accepted frame, with these bytes emitted so far (R128). -/
def TxUnit.idleWith (out : List Byte) : TxUnit :=
  { busy := false, rem := 0, cse := ⟨0, 0⟩, status := .ok, out := out }

end Sys2Proof.Machine
end

