-- ==== Sys2Proof/Certificates/Slice0/Obligations.lean ====
section
/-! DEFINITION. The statements for the provers, from the numbered rules of spec/. -/

open Sys2Proof Sys2Proof.Machine

/-- A property of each of the nine frame rows, with the opcode byte the Command Catalog gives it (R171 to
R179); `opOther` stands with any opcode. -/
def Sys2Proof.Claims.AllFrameRows (P : (FrameForm → Instr) → Byte → Prop) : Prop :=
  P .refreshNodesInfo 0x00 ∧ P .setDateTime 0x01 ∧ P .getNodesInfo 0x02 ∧ P .getNodesState 0x03
    ∧ P .getGatewayState 0x04 ∧ P .removeNodes 0x05 ∧ P .callGatewayFromNode 0x80
    ∧ P .reportNodesBatteryLevel 0x81 ∧ ∀ op, P (.opOther op) op

/-- The row's receive form completes; it shows what the functions say of the frame's bytes, holds the
frame's fields, stores the bytes below the length field that arrived, and changes nothing else. -/
def Sys2Proof.Claims.ReceivesFrame (row : FrameForm → Instr) (op : Byte) : Prop :=
  ∀ (s : State) (f : FrameFields), s.rx.idle →
    ∃ t, exec (row (.recv f)) s = .next t
      ∧ t.tx = s.tx ∧ t.inputs = s.inputs ∧ t.freeTick = s.freeTick
      ∧ t.rx.Shows (f.bytes op) ∧ t.rx.idle
      ∧ t.rx.hdr = f.header ∧ t.rx.addr = f.address ∧ t.rx.opcode = op
      ∧ t.rx.len = f.payloadLength.toNat ∧ t.rx.d0 = f.trailerSum ∧ t.rx.d1 = f.trailerAdd
      ∧ (f.payload.length = f.payloadLength.toNat →
          t.rx.status =
            if f.header ≠ Config.sof then .badHeader
            else if verify (f.bytes op) = true then .ok else .checksumMismatch)
      ∧ ∀ a, t.rx.pbuf.read a =
          if a < f.payloadLength.toNat ∧ a < f.payload.length + 2
          then (f.payload ++ [f.trailerSum, f.trailerAdd])[a]? else s.rx.pbuf.read a

/-- The row's send form completes in `TX_IDLE` for every payload that fits: it emits the frame `ENCODE`
gives, ends idle, and changes nothing else. -/
def Sys2Proof.Claims.SendsFrame (row : FrameForm → Instr) (op : Byte) : Prop :=
  ∀ (s : State) (p : List Byte), s.tx.busy = false → p.length ≤ 65535 →
    ∃ frame, encodeFrame Config.sof op p = .ok frame
      ∧ exec (row (.send p)) s = .next { s with tx := .idleWith (s.tx.out ++ frame) }

/-- Where the row's send form is turned away: refused in `TX_DATA`, and by status when the payload is too
long. -/
def Sys2Proof.Claims.SendTurnedAway (row : FrameForm → Instr) : Prop :=
  ∀ (s : State) (p : List Byte),
    (s.tx.busy = true → exec (row (.send p)) s = .refused .txStartWhileBusy)
    ∧ (s.tx.busy = false → 65536 ≤ p.length →
        exec (row (.send p)) s = .next { s with tx := { s.tx with status := .payloadTooLong } })

/-- The row is its expansion into events: `RECV` of the frame's bytes, `SEND` of the payload. -/
def Sys2Proof.Claims.IsItsEvents (row : FrameForm → Instr) (op : Byte) : Prop :=
  ∀ (s : State),
    (∀ f : FrameFields, exec (row (.recv f)) s = runInstrs (recvEvents (f.bytes op)) s)
    ∧ ∀ p : List Byte, p.length ≤ 65535 → exec (row (.send p)) s = runInstrs (sendEvents op p) s

/-- Every instruction of the list is one of the TX unit's or one of the RX unit's: no `RST`. -/
def Sys2Proof.Claims.UnitEvents (es : List Instr) : Prop :=
  ∀ i ∈ es, isTx i = true ∨ isRx i = true

/-- `y` is `x` with the bytes at `i` and `j` exchanged. -/
def Sys2Proof.Claims.exchanged (x : List Byte) (i j : Nat) : List Byte :=
  (x.set i (x.getD j 0)).set j (x.getD i 0)

/-! ### Reset -/

/-- R21, R230, R231: every register that the spec gives a reset value has it. -/
def Obligations.ResetStateIsIdle : Prop :=
  State.reset.tx.busy = false ∧ State.reset.tx.rem = 0 ∧ State.reset.tx.cse = ⟨0, 0⟩
    ∧ State.reset.tx.status.code = 0 ∧ State.reset.rx.pos = 0 ∧ State.reset.rx.cse = ⟨0, 0⟩
    ∧ State.reset.rx.valid = false ∧ State.reset.rx.dstat.code = 0 ∧ State.reset.rx.csok = false

/-- The invariant of `StepKeepsInvariant` holds after reset. -/
def Obligations.ResetMeetsInvariant : Prop := State.reset.inv

/-- R232 (with the control registers of R230): `RST` completes in every state, abandons both directions,
and what follows does not depend on what was in progress. The registers R230 leaves unspecified take free
values: the model's choice, log 6. -/
def Obligations.RstAbandonsWorkInProgress : Prop :=
  ∀ s : State, ∃ t, exec .rst s = .next t
    ∧ t.tx.busy = false ∧ t.tx.rem = 0 ∧ t.tx.cse = ⟨0, 0⟩ ∧ t.tx.status = .ok
    ∧ t.tx.out = s.tx.out
    ∧ t.rx.pos = 0 ∧ t.rx.cse = ⟨0, 0⟩ ∧ t.rx.valid = false ∧ t.rx.dstat = .ok ∧ t.rx.csok = false
    ∧ t.inputs = s.inputs
    ∧ (∀ b, ∃ u, runInstrs (recvEvents b) t = .next u ∧ u.rx.Shows b)
    ∧ (∀ op p, p.length ≤ 65535 → ∃ frame u, encodeFrame Config.sof op p = .ok frame
        ∧ runInstrs (sendEvents op p) t = .next u ∧ u.tx = .idleWith (s.tx.out ++ frame))
    ∧ ∀ s' : State, s'.freeTick = s.freeTick → ∃ t', exec .rst s' = .next t'
        ∧ t'.rx = t.rx ∧ { t'.tx with out := [] } = { t.tx with out := [] }

/-! ### The TX unit -/

/-- R124, in `TX_IDLE` (its precondition): `TX_START(op, 0)` emits the ten bytes of the shortest frame and
stays idle; `1 <= n <= 65535` emits the eight header bytes and enters `TX_DATA` with the sums over them; a
length that does not fit 16 bits changes `TX_STATUS` and nothing else. -/
def Obligations.TxStartStep : Prop :=
  ∀ (s : State) (op : Byte), s.tx.busy = false →
    exec (.txStart op 0) s = .next { s with
      tx :=
        { busy := false, rem := 0, cse := ⟨0, 0⟩, status := .ok
          out := s.tx.out ++ [Config.sof, 0, 0, 0, 0, op, 0, 0,
            Config.sof + op, 8 * Config.sof + 3 * op] } }
    ∧ (∀ n : BitVec 32, 1 ≤ n.toNat → n.toNat ≤ 65535 →
        exec (.txStart op n) s = .next { s with
          tx :=
            { busy := true
              rem := BitVec.ofNat 16 n.toNat
              cse := ⟨Config.sof + op + BitVec.ofNat 8 n.toNat + BitVec.ofNat 8 (n.toNat / 256),
                8 * Config.sof + 3 * op + 2 * BitVec.ofNat 8 n.toNat + BitVec.ofNat 8 (n.toNat / 256)⟩
              status := .ok
              out := s.tx.out ++ [Config.sof, 0, 0, 0, 0, op, BitVec.ofNat 8 n.toNat,
                BitVec.ofNat 8 (n.toNat / 256)] } })
    ∧ ∀ n : BitVec 32, 65536 ≤ n.toNat →
        exec (.txStart op n) s = .next { s with tx := { s.tx with status := .payloadTooLong } }

/-- R125, in `TX_DATA` (its precondition): the last byte owed is emitted with the trailer behind it, and the
unit is idle again; any other byte is emitted and absorbed, and one byte less is owed. -/
def Obligations.TxPayloadStep : Prop :=
  ∀ (s : State) (b : Byte), s.tx.busy = true →
    (s.tx.rem = 1 →
      exec (.txPayload b) s = .next { s with
        tx :=
          { busy := false, rem := 0, cse := ⟨0, 0⟩, status := s.tx.status
            out := s.tx.out ++ [b, s.tx.cse.sum + b, s.tx.cse.add + (s.tx.cse.sum + b)] } })
    ∧ (2 ≤ s.tx.rem.toNat →
        ∃ t, exec (.txPayload b) s = .next t
          ∧ t.rx = s.rx ∧ t.inputs = s.inputs ∧ t.freeTick = s.freeTick
          ∧ t.tx.out = s.tx.out ++ [b] ∧ t.tx.busy = true ∧ t.tx.status = s.tx.status
          ∧ t.tx.rem.toNat = s.tx.rem.toNat - 1
          ∧ t.tx.cse.sum = s.tx.cse.sum + b ∧ t.tx.cse.add = s.tx.cse.add + (s.tx.cse.sum + b))

/-- R127, R240: the event sequences a model must refuse. -/
def Obligations.TxProtocolBreachIsRefused : Prop :=
  ∀ s : State,
    (s.tx.busy = true → ∀ op n, exec (.txStart op n) s = .refused .txStartWhileBusy)
    ∧ (s.tx.busy = false → ∀ b, exec (.txPayload b) s = .refused .txPayloadWhileIdle)

/-- R44: during a frame the unit's registers follow the bytes emitted; at its end they are zero. -/
def Obligations.TxUnitTracksFrame : Prop :=
  ∀ (s : State) (op : Byte) (n : Nat) (q : List Byte),
    s.tx.busy = false → 1 ≤ n → n ≤ 65535 → q.length ≤ n →
    ∃ t e, runInstrs (.txStart op (BitVec.ofNat 32 n) :: q.map .txPayload) s = .next t
      ∧ t.tx.out = s.tx.out ++ e
      ∧ (t.tx.busy = true ↔ 1 ≤ t.tx.rem.toNat)
      ∧ (t.tx.busy = true ↔ q.length < n)
      ∧ (q.length < n → t.tx.cse = compute e ∧ e.length = 8 + (n - t.tx.rem.toNat)
          ∧ t.tx.rem.toNat = n - q.length)
      ∧ (q.length = n → t.tx.rem = 0 ∧ t.tx.cse = ⟨0, 0⟩)

/-- R128: the events of a `SEND`, with RX events between them or not, emit exactly the frame `ENCODE`
gives; a payload that is too long emits nothing.
(The frame rows among the instructions are single steps: log 4.) -/
def Obligations.TxUnitAgreesWithEncode : Prop :=
  ∀ (s : State) (op : Byte) (p : List Byte), s.tx.busy = false →
    (p.length ≤ 65535 → ∀ es, Claims.UnitEvents es → es.filter isTx = sendEvents op p →
      ∃ t frame, runInstrs es s = .next t ∧ encodeFrame Config.sof op p = .ok frame
        ∧ t.tx.out = s.tx.out ++ frame ∧ t.tx.busy = false ∧ t.tx.rem = 0 ∧ t.tx.cse = ⟨0, 0⟩
        ∧ t.tx.status = .ok)
    ∧ (65536 ≤ p.length → p.length < 2 ^ 32 →
        encodeFrame Config.sof op p = .error .payloadTooLong
        ∧ ∃ t, exec (.txStart op (BitVec.ofNat 32 p.length)) s = .next t
          ∧ t.tx.out = s.tx.out ∧ t.tx.status = .payloadTooLong ∧ t.tx.busy = false)

/-! ### The RX unit -/

/-- R148, R146, R109: one received byte, register by register and byte by byte of `PBUF`. -/
def Obligations.ReceivedByteStep : Prop :=
  ∀ (s : State) (b : Byte), ∃ t, exec (.rxByte b) s = .next t
    ∧ t.tx = s.tx ∧ t.inputs = s.inputs ∧ t.freeTick = s.freeTick
    ∧ t.rx.pos.toNat = min (s.rx.pos.toNat + 1) 131071
    ∧ t.rx.d0 = s.rx.d1 ∧ t.rx.d1 = b
    ∧ t.rx.cse =
        (if 2 ≤ s.rx.pos.toNat
         then ⟨s.rx.cse.sum + s.rx.d0, s.rx.cse.add + (s.rx.cse.sum + s.rx.d0)⟩ else s.rx.cse)
    ∧ t.rx.valid = false ∧ t.rx.dstat = s.rx.dstat ∧ t.rx.csok = s.rx.csok
    ∧ t.rx.hdr = (if s.rx.pos.toNat = 0 then b else s.rx.hdr)
    ∧ t.rx.addr.toList =
        (if 1 ≤ s.rx.pos.toNat ∧ s.rx.pos.toNat ≤ 4
         then s.rx.addr.toList.set (s.rx.pos.toNat - 1) b else s.rx.addr.toList)
    ∧ t.rx.opcode = (if s.rx.pos.toNat = 5 then b else s.rx.opcode)
    ∧ t.rx.lenLo = (if s.rx.pos.toNat = 6 then b else s.rx.lenLo)
    ∧ t.rx.lenHi = (if s.rx.pos.toNat = 7 then b else s.rx.lenHi)
    ∧ (∀ a, t.rx.pbuf.read a =
        if s.rx.storeAddress s.rx.pos.toNat = some a then some b else s.rx.pbuf.read a)
    ∧ ∀ a, s.rx.storeAddress s.rx.pos.toNat = some a ↔
        8 ≤ s.rx.pos.toNat ∧ s.rx.pos.toNat - 8 < s.rx.lenLo.toNat + 256 * s.rx.lenHi.toNat
          ∧ a = s.rx.pos.toNat - 8

/-- R149, R110: the end of a chunk, register by register. -/
def Obligations.ChunkEndStep : Prop :=
  ∀ s : State, ∃ t, exec .rxEnd s = .next t
    ∧ t.tx = s.tx ∧ t.inputs = s.inputs ∧ t.freeTick = s.freeTick
    ∧ t.rx.dstat.code =
        (if s.rx.pos.toNat < 10 then 1
         else if s.rx.hdr ≠ Config.sof then 2
         else if s.rx.pos.toNat ≠ 10 + (s.rx.lenLo.toNat + 256 * s.rx.lenHi.toNat) then 3 else 0)
    ∧ (t.rx.csok = true ↔ 2 ≤ s.rx.pos.toNat ∧ s.rx.cse.sum = s.rx.d0 ∧ s.rx.cse.add = s.rx.d1)
    ∧ t.rx.valid = true ∧ t.rx.pos = 0 ∧ t.rx.cse = ⟨0, 0⟩
    ∧ t.rx.hdr = s.rx.hdr ∧ t.rx.addr = s.rx.addr ∧ t.rx.opcode = s.rx.opcode
    ∧ t.rx.lenLo = s.rx.lenLo ∧ t.rx.lenHi = s.rx.lenHi ∧ t.rx.d0 = s.rx.d0 ∧ t.rx.d1 = s.rx.d1
    ∧ t.rx.pbuf = s.rx.pbuf
    ∧ t.rx.status.code =
        (if t.rx.dstat.code ≠ 0 then t.rx.dstat.code.setWidth 3 else if t.rx.csok = true then 0 else 4)

/-- R203, R36: the codes of the receive status and their priority, in every state of the two result
registers. -/
def Obligations.StatusViewPriority : Prop :=
  ∀ rx : RxUnit, rx.status.code =
    if rx.dstat.code ≠ 0 then rx.dstat.code.setWidth 3 else if rx.csok = true then 0 else 4

/-- R43, R34: what the registers that R43 lists hold after the bytes of a chunk, from any state, and that
`RX_DSTAT` and `RX_CSOK` still are what the `RST` or `RX_END` before the chunk left. -/
def Obligations.RxUnitHoldsChunkSoFar : Prop :=
  ∀ (s : State) (e : Instr) (b : List Byte), e = .rst ∨ e = .rxEnd →
    ∃ t u, exec e s = .next t ∧ runInstrs (b.map .rxByte) t = .next u
      ∧ u.rx.Holds b ∧ u.rx.dstat = t.rx.dstat ∧ u.rx.csok = t.rx.csok

/-- R155: after `RST` or any `RX_END`, the events of a `RECV`, with TX events between them or not, end with
what `DECODE`, `VERIFY` and `RECEIVE` say of the chunk.
(The frame rows among the instructions are single steps: log 4.) -/
def Obligations.RxUnitAgreesWithReceive : Prop :=
  ∀ (s : State) (e : Instr) (b : List Byte), e = .rst ∨ e = .rxEnd →
    (∃ t, runInstrs (e :: recvEvents b) s = .next t)
    ∧ ∀ es, Claims.UnitEvents es → es.filter isRx = recvEvents b →
        ∀ t, runInstrs (e :: es) s = .next t → t.rx.Shows b

/-- R151: whatever came before, an `RX_END` leaves the unit ready, and the next chunk's result is a function
of its own bytes. -/
def Obligations.NoChunkSpoilsTheNext : Prop :=
  ∀ (s : State) (b : List Byte), ∃ t u, exec .rxEnd s = .next t
    ∧ t.rx.pos = 0 ∧ t.rx.cse = ⟨0, 0⟩
    ∧ runInstrs (recvEvents b) t = .next u
    ∧ u.rx.valid = true ∧ u.rx.dstat = decodeCode Config.sof b ∧ u.rx.csok = verify b
    ∧ u.rx.status = receiveCode Config.sof b

/-- R153: the empty chunk, and every chunk of fewer than ten bytes. -/
def Obligations.EmptyAndShortChunks : Prop :=
  ∀ (s : State), s.rx.idle →
    (∃ t, exec .rxEnd s = .next t ∧ t.rx.dstat = .frameTooShort ∧ t.rx.csok = false ∧ t.rx.valid = true)
    ∧ ∀ b : List Byte, 1 ≤ b.length → b.length ≤ 9 →
        ∃ t, runInstrs (recvEvents b) s = .next t
          ∧ t.rx.dstat = .frameTooShort ∧ t.rx.csok = verify b ∧ (b.length = 1 → t.rx.csok = false)

/-- R154, R30: a chunk longer than the longest frame is taken whole, fails by its first byte or its length,
is still verified exactly, and stores nothing at `RX_LEN` or above. -/
def Obligations.OverlongChunks : Prop :=
  ∀ (s : State) (b : List Byte), s.rx.idle → 65545 < b.length →
    ∃ t u, runInstrs (b.map .rxByte) s = .next t
      ∧ t.rx.pos.toNat = min b.length 131071
      ∧ exec .rxEnd t = .next u
      ∧ u.rx.dstat = (if b.getD 0 0 ≠ Config.sof then .badHeader else .lengthMismatch)
      ∧ u.rx.csok = verify b
      ∧ ∀ a, u.rx.len ≤ a → u.rx.pbuf.read a = s.rx.pbuf.read a

/-! ### The functions -/

/-- R105: the closed form of the checksum, and its consequences (a), (b), (c). -/
def Obligations.ChecksumClosedForm : Prop :=
  ∀ x : List Byte,
    (compute x).sum.toNat = (x.map BitVec.toNat).sum % 256
    ∧ (compute x).add.toNat =
        ((List.range x.length).map fun i => (x.length - i) * (x.getD i 0).toNat).sum % 256
    ∧ (∀ y : List Byte, (compute (x ++ y)).sum = (compute x).sum + (compute y).sum
        ∧ (compute (x ++ y)).add =
            (compute x).add + BitVec.ofNat 8 y.length * (compute x).sum + (compute y).add)
    ∧ (∀ k, compute (List.replicate k 0 ++ x) = compute x)
    ∧ ∀ k, (compute (x ++ List.replicate k 0)).sum = (compute x).sum
        ∧ (compute (x ++ List.replicate k 0)).add = (compute x).add + BitVec.ofNat 8 k * (compute x).sum

/-- R107, R202: `VERIFY` compares the last two bytes exactly with the checksum of all before them. -/
def Obligations.VerifyComparesTrailer : Prop :=
  ∀ b : List Byte,
    (b.length < 2 → verify b = false)
    ∧ (2 ≤ b.length →
        (verify b = true ↔
          (compute (b.take (b.length - 2))).sum = b.getD (b.length - 2) 0
          ∧ (compute (b.take (b.length - 2))).add = b.getD (b.length - 1) 0))
    ∧ (2 ≤ b.length → (∀ v ∈ b, v = 0) → verify b = true)

/-- R111: a change of one covered byte, in particular of one bit, and a change confined to the trailer, is
always detected. -/
def Obligations.SingleByteChangeIsDetected : Prop :=
  (∀ (x : List Byte) (i : Nat) (v : Byte), i < x.length →
      (compute (x.set i v)).sum = (compute x).sum + (v - x.getD i 0))
  ∧ (∀ (b : List Byte) (i : Nat) (v : Byte), verify b = true → i < b.length - 2 → v ≠ b.getD i 0 →
      verify (b.set i v) = false)
  ∧ (∀ (b : List Byte) (i k : Nat), verify b = true → i < b.length - 2 → k < 8 →
      verify (b.set i (b.getD i 0 ^^^ (1#8 <<< k))) = false)
  ∧ ∀ (x : List Byte) (s a s' a' : Byte), verify (x ++ [s, a]) = true → (s', a') ≠ (s, a) →
      verify (x ++ [s', a']) = false

/-- R112: exchanging two covered bytes leaves `sum` and changes `add` by the product of distance and
difference; the exact condition for detection. -/
def Obligations.SwapDetectionCondition : Prop :=
  ∀ (x : List Byte) (i j : Nat), i < j → j < x.length →
    (compute (Claims.exchanged x i j)).sum = (compute x).sum
    ∧ (compute (Claims.exchanged x i j)).add =
        (compute x).add + BitVec.ofNat 8 (j - i) * (x.getD j 0 - x.getD i 0)
    ∧ (compute (Claims.exchanged x i j) = compute x ↔
        (256 : Int) ∣ ((j : Int) - i) * ((x.getD j 0).toNat - (x.getD i 0).toNat))
    ∧ (j = i + 1 → x.getD i 0 ≠ x.getD j 0 → compute (Claims.exchanged x i j) ≠ compute x)
    ∧ (j = i + 16 → x.getD i 0 = 0x00 → x.getD j 0 = 0x10 → compute (Claims.exchanged x i j) = compute x)

/-- R129 (a) to (e): properties of `ENCODE`, for every value of the marker. -/
def Obligations.EncodeFrameProperties : Prop :=
  ∀ (sof op : Byte) (p : List Byte), p.length ≤ 65535 →
    ∃ frame, encodeFrame sof op p = .ok frame
      ∧ frame.length = 10 + p.length
      ∧ (∀ op' p', encodeFrame sof op' p' = .ok frame → op' = op ∧ p' = p)
      ∧ verify frame = true
      ∧ frame.take 5 = [sof, 0, 0, 0, 0]
      ∧ ∃ frame0, encodeFrame 0 op p = .ok frame0
        ∧ frame.drop (8 + p.length) =
          [frame0.getD (8 + p.length) 0 + sof,
           frame0.getD (9 + p.length) 0 + BitVec.ofNat 8 (8 + p.length) * sof]

/-- R121, R122, R56: the frame `ENCODE` lays out, byte for byte, and its one failure. -/
def Obligations.EncodeLaysOutFrame : Prop :=
  ∀ (sof op : Byte) (p : List Byte),
    (65536 ≤ p.length → encodeFrame sof op p = .error .payloadTooLong)
    ∧ (p.length ≤ 65535 →
        let body := [sof, 0, 0, 0, 0, op, BitVec.ofNat 8 p.length, BitVec.ofNat 8 (p.length / 256)] ++ p
        encodeFrame sof op p = .ok (body ++ [(compute body).sum, (compute body).add]))

/-- R141, R142: the tests of `DECODE` in their order, and the fields of a frame that passes. -/
def Obligations.DecodeTestsInOrder : Prop :=
  ∀ (sof : Byte) (b : List Byte),
    (b.length < 10 → decodeChunk sof b = .error .frameTooShort)
    ∧ (10 ≤ b.length → b.getD 0 0 ≠ sof → decodeChunk sof b = .error .badHeader)
    ∧ (10 ≤ b.length → b.getD 0 0 = sof → b.length ≠ 10 + ((b.getD 6 0).toNat + 256 * (b.getD 7 0).toNat) →
        decodeChunk sof b = .error .lengthMismatch)
    ∧ (b.getD 0 0 = sof → b.length = 10 + ((b.getD 6 0).toNat + 256 * (b.getD 7 0).toNat) →
        ∃ f, decodeChunk sof b = .ok f
          ∧ f.address.toList = (b.drop 1).take 4 ∧ f.opcode = b.getD 5 0
          ∧ f.payloadLength = (b.getD 6 0).toNat + 256 * (b.getD 7 0).toNat
          ∧ b.drop 8 = f.payload ++ [f.checksumPair.1, f.checksumPair.2]
          ∧ f.payload.length = f.payloadLength)

/-- R144, R201, R203: the outcome of `RECEIVE` is the first that applies, and only `OK` hands on a frame. -/
def Obligations.ReceiveOutcomePriority : Prop :=
  ∀ (sof : Byte) (b : List Byte),
    receiveCode sof b =
      (if b.length < 10 then .frameTooShort
       else if b.getD 0 0 ≠ sof then .badHeader
       else if b.length ≠ 10 + ((b.getD 6 0).toNat + 256 * (b.getD 7 0).toNat) then .lengthMismatch
       else if verify b = true then .ok else .checksumMismatch)
    ∧ ∀ f, receive sof b = .ok f ↔ decodeChunk sof b = .ok f ∧ verify b = true

/-- R156: the round-trip law, of the functions for every marker and of the events of a `LOOP`. -/
def Obligations.RoundTripLaw : Prop :=
  ∀ (op : Byte) (p : List Byte), p.length ≤ 65535 →
    (∀ sof : Byte, ∃ frame s a, encodeFrame sof op p = .ok frame
      ∧ verify frame = true
      ∧ receive sof frame = .ok
          { address := ⟨0, 0, 0, 0⟩, opcode := op, payloadLength := p.length, payload := p
            checksumPair := (s, a) })
    ∧ ∀ s : State, s.tx.busy = false → s.rx.idle →
        ∃ t, loopBack op p s = .next t
          ∧ t.rx.valid = true ∧ t.rx.status = .ok ∧ t.rx.opcode = op ∧ t.rx.len = p.length
          ∧ t.rx.addr = ⟨0, 0, 0, 0⟩ ∧ ∀ j, j < p.length → t.rx.pbuf.read j = p[j]?

/-! ### The frame rows -/

/-- R171 to R179, R76, R144: every frame row received between chunks. (Rows as single steps: log 4.) -/
def Obligations.FrameRowsReceive : Prop :=
  Claims.AllFrameRows Claims.ReceivesFrame

/-- R171 to R179, R76, R121: every frame row sent from `TX_IDLE`. (Rows as single steps: log 4.) -/
def Obligations.FrameRowsSend : Prop :=
  Claims.AllFrameRows Claims.SendsFrame

/-- R122, R127, R180: where a frame row's send form is turned away. (Log 4, log 19.) -/
def Obligations.FrameRowsSendTurnedAway : Prop :=
  Claims.AllFrameRows fun row _ => Claims.SendTurnedAway row

/-- R85: a frame row is the run of its events, in every state, refusals included. (The rows as single steps
are the model's choice, log 4.) -/
def Obligations.FrameRowsAreTheirEvents : Prop :=
  Claims.AllFrameRows Claims.IsItsEvents

/-- R180, R181: the request builders send the opcode's frame over the ids as little-endian pairs; a list
that is too long is turned away by status. (Log 4, log 21.) -/
def Obligations.RequestBuildersSend : Prop :=
  ∀ (s : State) (ids : List (BitVec 16)), s.tx.busy = false →
    (idsLe16 ids).length = 2 * ids.length
    ∧ (∀ i, i < ids.length →
        (idsLe16 ids)[2 * i]? = some (BitVec.ofNat 8 (ids.getD i 0).toNat)
        ∧ (idsLe16 ids)[2 * i + 1]? = some (BitVec.ofNat 8 ((ids.getD i 0).toNat / 256)))
    ∧ (∀ build op, (build, op) ∈
          [(requestGetNodesInfo ids, 0x02#8), (requestGetNodesState ids, 0x03#8), (requestRemoveNodes ids, 0x05#8)] →
        (ids.length ≤ 32767 → ∃ frame, encodeFrame Config.sof op (idsLe16 ids) = .ok frame
          ∧ exec build s = .next { s with tx := .idleWith (s.tx.out ++ frame) })
        ∧ (32767 < ids.length → exec build s = .next { s with tx := { s.tx with status := .payloadTooLong } }))
    ∧ ∀ build op, (build, op) ∈
          [(requestRefreshNodesInfo, 0x00#8), (requestSetDateTime, 0x01#8), (requestGetGatewayState, 0x04#8)] →
        ∃ frame, encodeFrame Config.sof op [] = .ok frame
          ∧ exec build s = .next { s with tx := .idleWith (s.tx.out ++ frame) }

/-! ### Whole-machine rules -/

/-- R59, R20: the units do not interfere. For any interleaving, each unit ends as its own events alone would
leave it, the interleaving completes when the TX events alone do, and single steps commute. (The frame rows
among them are single steps: log 4.) -/
def Obligations.UnitsDoNotInterfere : Prop :=
  ∀ (s : State) (es : List Instr), Claims.UnitEvents es →
    (∀ t, runInstrs es s = .next t →
      ∃ u v, runInstrs (es.filter isTx) s = .next u ∧ runInstrs (es.filter isRx) s = .next v
        ∧ t.tx = u.tx ∧ t.rx = v.rx)
    ∧ (∀ u, runInstrs (es.filter isTx) s = .next u → ∃ t, runInstrs es s = .next t)
    ∧ ∀ i j, isTx i = true → isRx j = true → runInstrs [i, j] s = runInstrs [j, i] s

/-- R39, R44, R57, R109, R150: the invariant that every step keeps. (The list of inputs and the frame rows
as single steps: log 3, log 4.) -/
def Obligations.StepKeepsInvariant : Prop :=
  ∀ s t : State, s.inv → step s = .next t → t.inv

/-- R33: what sets, clears and leaves `RX_VALID`, and that the host reads no result while it is 0
(log 16). That a received frame row sets it in one step is the model's choice, log 4. -/
def Obligations.ValidFlagRule : Prop :=
  ∀ s t : State,
    (exec .rxEnd s = .next t → t.rx.valid = true)
    ∧ (∀ b, exec (.rxByte b) s = .next t → t.rx.valid = false)
    ∧ (exec .rst s = .next t → t.rx.valid = false)
    ∧ (∀ i, isTx i = true → exec i s = .next t → t.rx = s.rx)
    ∧ (∀ op f, exec (frameInstr op (.recv f)) s = .next t → t.rx.valid = true)
    ∧ (s.rx.valid = false →
        s.readRxDstat = .error .resultNotValid ∧ s.readRxCsok = .error .resultNotValid
        ∧ s.readRxStatus = .error .resultNotValid ∧ s.readRxAddr = .error .resultNotValid
        ∧ s.readRxOpcode = .error .resultNotValid ∧ s.readRxLen = .error .resultNotValid
        ∧ s.readRxLenLo = .error .resultNotValid ∧ s.readRxLenHi = .error .resultNotValid
        ∧ ∀ j, s.readPbuf j = .error .resultNotValid)

/-- R32, R125: what sets, clears and leaves `TX_BUSY`. That a sent frame row leaves it 0 in one step is the
model's choice, log 4. A `TX_REM` of 0 in `TX_DATA`, which no run reaches, takes R125's other branch (log 13). -/
def Obligations.BusyFlagRule : Prop :=
  ∀ s t : State,
    (∀ op n, exec (.txStart op n) s = .next t →
      s.tx.busy = false ∧ (t.tx.busy = true ↔ 1 ≤ n.toNat ∧ n.toNat ≤ 65535))
    ∧ (∀ b, exec (.txPayload b) s = .next t → s.tx.busy = true ∧ (t.tx.busy = true ↔ s.tx.rem ≠ 1))
    ∧ (∀ op p, exec (frameInstr op (.send p)) s = .next t → t.tx.busy = false)
    ∧ (exec .rst s = .next t → t.tx.busy = false)
    ∧ ∀ i, isRx i = true → exec i s = .next t → t.tx = s.tx

/-- R34: `TX_STATUS`, `RX_DSTAT` and `RX_CSOK` are written by their own events and by `RST` only.
(The frame rows among the units' instructions are single steps: log 4.) -/
def Obligations.ResultFlagsHaveOneWriter : Prop :=
  ∀ s t : State,
    (∀ op n, exec (.txStart op n) s = .next t →
      t.tx.status = if n.toNat ≤ 65535 then .ok else .payloadTooLong)
    ∧ (∀ b, exec (.txPayload b) s = .next t → t.tx.status = s.tx.status)
    ∧ (∀ i, isRx i = true → exec i s = .next t → t.tx.status = s.tx.status)
    ∧ (∀ b, exec (.rxByte b) s = .next t → t.rx.csok = s.rx.csok ∧ t.rx.dstat = s.rx.dstat)
    ∧ (∀ i, isTx i = true → exec i s = .next t → t.rx.csok = s.rx.csok ∧ t.rx.dstat = s.rx.dstat)
    ∧ (exec .rst s = .next t → t.tx.status = .ok ∧ t.rx.csok = false ∧ t.rx.dstat = .ok)

/-- R58, R232: what is on `TX_OUT` stays there, and only the TX unit's instructions add to it. (Log 4,
log 11.) -/
def Obligations.OutputOnlyGrows : Prop :=
  ∀ (i : Instr) (s t : State), exec i s = .next t →
    (∃ e, t.tx.out = s.tx.out ++ e) ∧ (isTx i = false → t.tx.out = s.tx.out)

/-- R60: frames never interleave. Whatever completes from `TX_IDLE` without `RST` puts whole frames on
`TX_OUT`, one after the other, and in `TX_DATA` the first bytes of one frame more. (Log 4.) -/
def Obligations.OutputIsWholeFrames : Prop :=
  ∀ (s t : State) (es : List Instr), s.tx.busy = false → Claims.UnitEvents es → runInstrs es s = .next t →
    ∃ (frames : List (List Byte)) (tail : List Byte),
      t.tx.out = s.tx.out ++ frames.flatten ++ tail
      ∧ (∀ f ∈ frames, ∃ op p, encodeFrame Config.sof op p = .ok f)
      ∧ (t.tx.busy = false → tail = [])
      ∧ (t.tx.busy = true → ∃ op q, tail.length = 8 + q.length
          ∧ ∀ r, r.length = t.tx.rem.toNat →
            ∃ f, encodeFrame Config.sof op (q ++ r) = .ok f ∧ f.take tail.length = tail)

/-- R124, R125, R148, R149, R230: the output of each event's step, its status and its bytes.
(Told from the states: log 20; a `TX_REM` of 0 in `TX_DATA`, which no run reaches, takes R125's other branch:
log 13.) -/
def Obligations.EventStepOutputs : Prop :=
  ∀ s t : State,
    (∀ op n, exec (.txStart op n) s = .next t →
      outputOf (.txStart op n) s t =
        if 65535 < n.toNat then ⟨some (.tx .payloadTooLong), []⟩
        else if n = 0 then
          ⟨some (.tx .ok), [Config.sof, 0, 0, 0, 0, op, 0, 0, Config.sof + op, 8 * Config.sof + 3 * op]⟩
        else
          ⟨some (.tx .ok), [Config.sof, 0, 0, 0, 0, op, BitVec.ofNat 8 n.toNat, BitVec.ofNat 8 (n.toNat / 256)]⟩)
    ∧ (∀ b, exec (.txPayload b) s = .next t →
      outputOf (.txPayload b) s t =
        ⟨none, if s.tx.rem = 1 then [b, s.tx.cse.sum + b, s.tx.cse.add + (s.tx.cse.sum + b)] else [b]⟩)
    ∧ (∀ b, exec (.rxByte b) s = .next t → outputOf (.rxByte b) s t = ⟨none, []⟩)
    ∧ (exec .rxEnd s = .next t →
      outputOf .rxEnd s t = ⟨some (.rx (rxStatusOf (s.rx.decodeStatus Config.sof) s.rx.vEnd)), []⟩)
    ∧ (exec .rst s = .next t → outputOf .rst s t = ⟨none, []⟩)

/-- R63, R147, R146: no step loads from `PBUF`. The addresses an instruction stores to do not depend on what
is there; with any other contents it ends the same way, every other register is the same, a stored byte is the
same, and every other address reads as before. The events' and the rows' addresses are named: none for the TX
unit and `RX_END`, the offset's own for `RX_BYTE`, those below the length field for a frame between chunks.
`RST` leaves no value at any address: the model's choice, log 7. (Rows as single steps: log 4.) -/
def Obligations.PayloadBufferIsNeverLoaded : Prop :=
  ∀ (i : Instr) (s t : State), exec i s = .next t →
    ∃ stored : Nat → Prop,
      (∀ a, ¬ stored a → t.rx.pbuf.read a = s.rx.pbuf.read a)
      ∧ (∀ m : Memory, ∃ m',
          exec i { s with rx := { s.rx with pbuf := m } } = .next { t with rx := { t.rx with pbuf := m' } }
          ∧ (∀ a, stored a → m'.read a = t.rx.pbuf.read a)
          ∧ ∀ a, ¬ stored a → m'.read a = m.read a)
      ∧ (isTx i = true ∨ i = .rxEnd → ∀ a, ¬ stored a)
      ∧ (∀ b, i = .rxByte b → ∀ a, stored a ↔ s.rx.storeAddress s.rx.pos.toNat = some a)
      ∧ (i = .rst → ∀ a, stored a ∧ t.rx.pbuf.read a = none)
      ∧ ∀ op f, i = frameInstr op (.recv f) → s.rx.idle →
          ∀ a, stored a ↔ a < f.payloadLength.toNat ∧ a < f.payload.length + 2

/-- R37, R145, R147, R207: after an `OK` chunk the host reads exactly the frame, the two length bytes of the
chunk among it; after an error it reads no frame. (Log 16.) -/
def Obligations.HostReadsOnlyDeliveredFrame : Prop :=
  ∀ (s : State) (b : List Byte), s.rx.idle →
    ∃ t, runInstrs (recvEvents b) s = .next t
      ∧ t.readRxValid = true ∧ t.readRxStatus = .ok (receiveCode Config.sof b)
      ∧ t.readRxDstat = .ok (decodeCode Config.sof b) ∧ t.readRxCsok = .ok (verify b)
      ∧ (∀ f, receive Config.sof b = .ok f →
          t.readRxAddr = .ok f.address ∧ t.readRxOpcode = .ok f.opcode
          ∧ t.readRxLen = .ok (BitVec.ofNat 16 f.payloadLength)
          ∧ t.readRxLenLo = .ok (b.getD 6 0) ∧ t.readRxLenHi = .ok (b.getD 7 0)
          ∧ (∀ j, j < f.payloadLength → t.readPbuf j = .ok (f.payload.getD j 0))
          ∧ ∀ j, f.payloadLength ≤ j → t.readPbuf j = .error .pastPayload)
      ∧ (receiveCode Config.sof b ≠ .ok →
          t.readRxAddr = .error .frameNotOk ∧ t.readRxOpcode = .error .frameNotOk
          ∧ t.readRxLen = .error .frameNotOk
          ∧ t.readRxLenLo = .error .frameNotOk ∧ t.readRxLenHi = .error .frameNotOk
          ∧ ∀ j, t.readPbuf j = .error .frameNotOk)

/-! ### Encoding and stepping -/

/-- R70, R77: decoding and encoding agree for every instruction, and a chunk decodes exactly when it is a
frame of the format. (Words, chunks and requests as inputs: log 3.) -/
def Obligations.DecodeEncodeAgree : Prop :=
  (∀ i : Instr, i.wf = true → decodeInput (encodeInstr i) = .ok i)
  ∧ (∀ (b : List Byte) (i : Instr), decodeInput (.chunk b) = .ok i → i.wf = true ∧ encodeInstr i = .chunk b)
  ∧ (∀ (op : Byte) (p : List Byte) (i : Instr), decodeInput (.request op p) = .ok i →
      i.wf = true ∧ encodeInstr i = .request op p)
  ∧ ∀ b : List Byte, (∃ i, decodeInput (.chunk b) = .ok i) ↔
      10 ≤ b.length ∧ b.length = 10 + ((b.getD 6 0).toNat + 256 * (b.getD 7 0).toNat)

/-- R77, R81: the fields of an event word by their places; ignored bits do not matter; reserved codes are no
event. -/
def Obligations.EventWordDecoding : Prop :=
  ∀ w : BitVec 43,
    (w.toNat % 8 = 1 → decodeEvent w
      = .ok (.txStart (BitVec.ofNat 8 (w.toNat / 8)) (BitVec.ofNat 32 (w.toNat / 2048))))
    ∧ (w.toNat % 8 = 2 → decodeEvent w = .ok (.txPayload (BitVec.ofNat 8 (w.toNat / 8))))
    ∧ (w.toNat % 8 = 3 → decodeEvent w = .ok (.rxByte (BitVec.ofNat 8 (w.toNat / 8))))
    ∧ (w.toNat % 8 = 4 → decodeEvent w = .ok .rxEnd)
    ∧ (w.toNat % 8 = 7 → decodeEvent w = .ok .rst)
    ∧ (w.toNat % 8 = 0 ∨ w.toNat % 8 = 5 ∨ w.toNat % 8 = 6 →
        decodeEvent w = .error (.reservedEventCode (BitVec.ofNat 3 w.toNat)))

/-- R75, R71: a frame decodes to the catalog row whose match and mask its header word meets, and to
`OP_OTHER` when none does; no header word meets two rows. -/
def Obligations.OpcodeMapSelectsRow : Prop :=
  (∀ (b : List Byte) (i : Instr), decodeFrame b = .ok i →
    (∀ row ∈ opcodeMap, row.matches (headerWord b) = true → i.mnemonic = row.mnemonic)
    ∧ ((∀ row ∈ opcodeMap, row.matches (headerWord b) = false) → i.mnemonic = "OP_OTHER"))
  ∧ ∀ h : BitVec 64, opcodeMap.Pairwise fun r q => ¬ (r.matches h = true ∧ q.matches h = true)

/-- Words written out from R77 and a frame written out from R56 decode to what they stand for. -/
def Obligations.DecodeWordsFromTables : Prop :=
  decodeInput (.word 0x1029) = .ok (.txStart 0x05 2)
  ∧ decodeInput (.word 0x12) = .ok (.txPayload 0x02)
  ∧ decodeInput (.word 0x553) = .ok (.rxByte 0xAA)
  ∧ decodeInput (.word 0x4) = .ok .rxEnd
  ∧ decodeInput (.word 0x7) = .ok .rst
  ∧ decodeInput (.chunk [0xAA, 0x00, 0x00, 0x00, 0x00, 0x05, 0x02, 0x00, 0x02, 0x01, 0xB4, 0xCA])
      = .ok (.removeNodes (.recv
          { header := 0xAA, address := ⟨0, 0, 0, 0⟩, payloadLength := 2, payload := [0x02, 0x01]
            trailerSum := 0xB4, trailerAdd := 0xCA }))

/-- R8, R58, R81: a step takes the first input and runs the instruction it decodes to; a reserved event word
changes nothing but is taken; a chunk that is no frame of the format is received by the RX unit; with no
input nothing happens. (The list of inputs and the idle step are the model's choice, log 3, log 14.) -/
def Obligations.StepRunsDecodedInput : Prop :=
  ∀ (s : State) (inp : Input) (rest : List Input),
    (s.inputs = inp :: rest → ∀ i, decodeInput inp = .ok i → step s = exec i { s with inputs := rest })
    ∧ (∀ w e, s.inputs = .word w :: rest → decodeInput (.word w) = .error e →
        step s = .next { s with inputs := rest })
    ∧ (∀ b e, s.inputs = .chunk b :: rest → decodeInput (.chunk b) = .error e →
        step s = .next { s with inputs := rest, rx := s.rx.chunk Config.sof b })
    ∧ (s.inputs = [] → step s = .next s)

/-- R58: presenting the words of well-formed instructions one after the other and stepping is running them
in their order. (The list of inputs: log 3.)
(The frame rows among the instructions are single steps: log 4.) -/
def Obligations.StepsRunPresentedInstructions : Prop :=
  ∀ (s : State) (is : List Instr) (rest : List Input), (∀ i ∈ is, i.wf = true) →
    Host.Core.run Sys2Proof.core is.length { s with inputs := is.map encodeInstr ++ rest }
      = runInstrs is { s with inputs := rest }
end

