-- ==== Sys2Proof/Laws/Checksum.lean ====
section
/-! SUPPORT. The laws of the checksum engine: absorbing byte by byte, and the shape of the trailer. -/

namespace Sys2Proof.Machine

@[simp] theorem csInit_eq : csInit = ⟨0, 0⟩ := rfl

@[simp] theorem csAbsorb_sum (b : Byte) (c : Cse) : (csAbsorb b c).sum = c.sum + b := rfl
@[simp] theorem csAbsorb_add (b : Byte) (c : Cse) : (csAbsorb b c).add = c.add + (c.sum + b) := rfl

@[simp] theorem compute_nil : compute [] = ⟨0, 0⟩ := rfl

/-- One byte more is one absorption more (R106). -/
@[simp] theorem compute_snoc (x : List Byte) (b : Byte) : compute (x ++ [b]) = csAbsorb b (compute x) := by
  simp [compute]

/-- Absorbing `y` after `x` is computing over both. -/
theorem foldl_absorb_compute (x y : List Byte) :
    y.foldl (fun c b => csAbsorb b c) (compute x) = compute (x ++ y) := by
  simp [compute]

@[simp] theorem csResult_length (c : Cse) : (csResult c).length = 2 := rfl

theorem csResult_inj {c d : Cse} (h : csResult c = csResult d) : c = d := by
  cases c; cases d; simpa [csResult] using h

/-- `VERIFY` of a buffer written as prefix and trailer. -/
theorem verify_append (x : List Byte) (s a : Byte) : verify (x ++ [s, a]) = (compute x == ⟨s, a⟩) := by
  have hl : (x ++ [s, a]).length = x.length + 2 := by simp
  have hn : ¬ x.length + 2 < 2 := by omega
  have ht : (x ++ [s, a]).take (x.length + 2 - 2) = x := by simp
  have hd : (x ++ [s, a]).drop (x.length + 2 - 2) = [s, a] := by simp
  rw [verify, hl, if_neg hn, ht, hd]
  generalize compute x = c
  rw [Bool.eq_iff_iff, beq_iff_eq, beq_iff_eq]
  exact ⟨fun h => (csResult_inj (c := ⟨s, a⟩) h).symm, fun h => h ▸ rfl⟩

/-- A buffer of two bytes or more is a prefix and a trailer. -/
theorem exists_trailer (b : List Byte) (h : 2 ≤ b.length) : ∃ x s a, b = x ++ [s, a] := by
  refine ⟨b.take (b.length - 2), b[b.length - 2], b[b.length - 1], ?_⟩
  have hd : b.drop (b.length - 2) = [b[b.length - 2], b[b.length - 1]] := by
    rw [List.drop_eq_getElem_cons (by omega), List.drop_eq_getElem_cons (by omega)]
    simp [show b.length - 2 + 1 = b.length - 1 by omega, show b.length - 1 + 1 = b.length by omega]
  rw [← hd, List.take_append_drop]

end Sys2Proof.Machine
end

