-- ==== Sys2Proof/Laws/Decode.lean ====
section
/-! SUPPORT. The laws of the field functions, of the event word and of the frame decoder. -/

namespace Sys2Proof

@[simp] theorem lo8_toNat (v : Nat) : (lo8 v).toNat = v % 256 := by simp [lo8]

@[simp] theorem hi8_toNat (v : Nat) : (hi8 v).toNat = v / 256 % 256 := by simp [hi8]

theorem le16_lt (lo hi : Byte) : le16 lo hi < 65536 := by
  have := lo.isLt; have := hi.isLt; unfold le16; omega

theorem le16_lo8_hi8 (v : Nat) (h : v < 65536) : le16 (lo8 v) (hi8 v) = v := by
  unfold le16; rw [lo8_toNat, hi8_toNat]; omega

theorem lo8_le16 (lo hi : Byte) : lo8 (le16 lo hi) = lo := by
  apply BitVec.eq_of_toNat_eq; have := lo.isLt; rw [lo8_toNat]; unfold le16; omega

theorem hi8_le16 (lo hi : Byte) : hi8 (le16 lo hi) = hi := by
  apply BitVec.eq_of_toNat_eq; have := lo.isLt; have := hi.isLt; rw [hi8_toNat]; unfold le16; omega

/-- Every bit of an event word. -/
theorem eventWord_getLsbD (c : BitVec 3) (b : Byte) (n : BitVec 32) (i : Nat) :
    (eventWord c b n).getLsbD i
      = if i < 3 then c.getLsbD i else if i - 3 < 8 then b.getLsbD (i - 3) else n.getLsbD (i - 3 - 8) := by
  change ((n ++ b) ++ c).getLsbD i = _
  rw [BitVec.getLsbD_append, BitVec.getLsbD_append]

@[simp] theorem eventWord_code (c : BitVec 3) (b : Byte) (n : BitVec 32) :
    (eventWord c b n).extractLsb' 0 3 = c := by
  apply BitVec.eq_of_getLsbD_eq; intro i hi
  simp [eventWord_getLsbD, hi]

@[simp] theorem eventWord_byte (c : BitVec 3) (b : Byte) (n : BitVec 32) :
    (eventWord c b n).extractLsb' 3 8 = b := by
  apply BitVec.eq_of_getLsbD_eq; intro i hi
  simp [eventWord_getLsbD, hi]

@[simp] theorem eventWord_n (c : BitVec 3) (b : Byte) (n : BitVec 32) :
    (eventWord c b n).extractLsb' 11 32 = n := by
  apply BitVec.eq_of_getLsbD_eq; intro i hi
  have h1 : ¬ 11 + i < 3 := by omega
  have h2 : ¬ 11 + i - 3 < 8 := by omega
  have h3 : 11 + i - 3 - 8 = i := by omega
  simp [eventWord_getLsbD, hi, h1, h2, h3]

/-- The bytes of a frame, one by one. -/
theorem FrameFields.bytes_eq (op : Byte) (f : FrameFields) :
    f.bytes op = f.header :: f.address.b0 :: f.address.b1 :: f.address.b2 :: f.address.b3 :: op
      :: lo8 f.payloadLength.toNat :: hi8 f.payloadLength.toNat
      :: (f.payload ++ [f.trailerSum, f.trailerAdd]) := by
  simp [FrameFields.bytes, Address.toList]

@[simp] theorem FrameFields.bytes_length (op : Byte) (f : FrameFields) :
    (f.bytes op).length = 10 + f.payload.length := by
  simp [FrameFields.bytes_eq]; omega

theorem splitBody_append (p : List Byte) (s a : Byte) :
    splitBody p.length (p ++ [s, a]) = .ok (p, s, a) := by
  simp [splitBody]

/-- A body splits exactly when it is `len` payload bytes and two more. -/
theorem splitBody_ok {len : Nat} {body p : List Byte} {s a : Byte} (h : splitBody len body = .ok (p, s, a)) :
    body = p ++ [s, a] ∧ p.length = len := by
  unfold splitBody at h
  split at h
  · rename_i s' a' hd
    have hlen := congrArg List.length hd
    simp at hlen
    simp only [Except.ok.injEq, Prod.mk.injEq] at h
    obtain ⟨rfl, rfl, rfl⟩ := h
    exact ⟨by rw [← hd, List.take_append_drop], by simp; omega⟩
  · cases h

/-- The decoder reads a well-formed frame back from its bytes. -/
theorem decodeFrame_bytes (op : Byte) (f : FrameFields) (h : f.payload.length = f.payloadLength.toNat) :
    decodeFrame (f.bytes op) = .ok (frameInstr op (.recv f)) := by
  have hl := f.payloadLength.isLt
  have hle := le16_lo8_hi8 f.payloadLength.toNat hl
  obtain ⟨b0, b1, rest, hb⟩ : ∃ b0 b1 rest, f.payload ++ [f.trailerSum, f.trailerAdd] = b0 :: b1 :: rest := by
    cases hp : f.payload with
    | nil => exact ⟨_, _, _, rfl⟩
    | cons x t => cases t <;> exact ⟨_, _, _, rfl⟩
  rw [FrameFields.bytes_eq, hb]
  simp only [decodeFrame]
  rw [← hb, hle, ← h, splitBody_append]
  simp [h]

/-- What a decoded frame is: the row of its opcode over fields whose bytes are the chunk. -/
theorem decodeFrame_ok {bytes : List Byte} {i : Instr} (h : decodeFrame bytes = .ok i) :
    ∃ op f, i = frameInstr op (.recv f) ∧ f.payload.length = f.payloadLength.toNat ∧ f.bytes op = bytes := by
  unfold decodeFrame at h
  split at h
  · rename_i hd a0 a1 a2 a3 op lo hi b0 b1 rest
    split at h
    · rename_i p s a hs
      obtain ⟨hb, hlen⟩ := splitBody_ok hs
      have hlt := le16_lt lo hi
      refine ⟨op, _, (Except.ok.inj h).symm, ?_, ?_⟩
      · simp [hlen, Nat.mod_eq_of_lt hlt]
      · rw [FrameFields.bytes_eq]
        simp [Nat.mod_eq_of_lt hlt, lo8_le16, hi8_le16, hb]
    · cases h
  · cases h

/-- A catalog opcode decodes to its own row, any other to `opOther`. -/
theorem frameInstr_cases (op : Byte) (form : FrameForm) :
    (op = Config.opRefreshNodesInfo ∧ frameInstr op form = .refreshNodesInfo form)
    ∨ (op = Config.opSetDateTime ∧ frameInstr op form = .setDateTime form)
    ∨ (op = Config.opGetNodesInfo ∧ frameInstr op form = .getNodesInfo form)
    ∨ (op = Config.opGetNodesState ∧ frameInstr op form = .getNodesState form)
    ∨ (op = Config.opGetGatewayState ∧ frameInstr op form = .getGatewayState form)
    ∨ (op = Config.opRemoveNodes ∧ frameInstr op form = .removeNodes form)
    ∨ (op = Config.opCallGatewayFromNode ∧ frameInstr op form = .callGatewayFromNode form)
    ∨ (op = Config.opReportNodesBatteryLevel ∧ frameInstr op form = .reportNodesBatteryLevel form)
    ∨ (isCatalogOpcode op = false ∧ frameInstr op form = .opOther op form) := by
  unfold frameInstr
  repeat' split
  all_goals simp_all [isCatalogOpcode, Config.catalogOpcodes]

theorem frameInstr_other (op : Byte) (form : FrameForm) (h : isCatalogOpcode op = false) :
    frameInstr op form = .opOther op form := by
  simp [isCatalogOpcode, Config.catalogOpcodes] at h
  simp [frameInstr, h]

/-- Encoding the row of an opcode writes that opcode. -/
theorem encodeInstr_frameInstr (op : Byte) (form : FrameForm) :
    encodeInstr (frameInstr op form) = encodeForm op form := by
  rcases frameInstr_cases op form with ⟨h, e⟩ | ⟨h, e⟩ | ⟨h, e⟩ | ⟨h, e⟩ | ⟨h, e⟩ | ⟨h, e⟩ | ⟨h, e⟩ | ⟨h, e⟩ | ⟨h, e⟩ <;>
    rw [e] <;> simp [encodeInstr, h]

/-- The row of an opcode is well-formed when its form is. -/
theorem wf_frameInstr (op : Byte) (form : FrameForm) : (frameInstr op form).wf = form.wf := by
  rcases frameInstr_cases op form with ⟨_, e⟩ | ⟨_, e⟩ | ⟨_, e⟩ | ⟨_, e⟩ | ⟨_, e⟩ | ⟨_, e⟩ | ⟨_, e⟩ | ⟨_, e⟩ | ⟨h, e⟩ <;>
    rw [e] <;> simp [Instr.wf, *]

/-- Decoding what `encodeForm` writes. -/
theorem decode_encodeForm (op : Byte) (form : FrameForm) (h : form.wf = true) :
    decodeInput (encodeForm op form) = .ok (frameInstr op form) := by
  cases form with
  | send p => rfl
  | recv f => exact decodeFrame_bytes op f (by simpa [FrameForm.wf] using h)

end Sys2Proof
end

