-- ==== Sys2Proof/Laws/PerInstr.lean ====
section
/-! SUPPORT. Facts about every constructor of `Instr`, one lemma each. -/

namespace Sys2Proof.Laws

/-- The encoder writes only what the decoder reads back. -/
def RoundTrip.Statement (i : Instr) : Prop :=
  i.wf = true → decodeInput (encodeInstr i) = .ok i

/-- The shape of the nine frame rows: a row whose encoding is its opcode's, and which that opcode selects. -/
theorem RoundTrip.ofForm {i : Instr} {op : Byte} {form : FrameForm} (he : encodeInstr i = encodeForm op form)
    (hf : frameInstr op form = i) (hw : i.wf = true → form.wf = true) : RoundTrip.Statement i := by
  intro h
  rw [he, decode_encodeForm op form (hw h), hf]

theorem RoundTrip.refreshNodesInfo (form : FrameForm) : RoundTrip.Statement (.refreshNodesInfo form) :=
  RoundTrip.ofForm rfl rfl id
theorem RoundTrip.setDateTime (form : FrameForm) : RoundTrip.Statement (.setDateTime form) :=
  RoundTrip.ofForm rfl rfl id
theorem RoundTrip.getNodesInfo (form : FrameForm) : RoundTrip.Statement (.getNodesInfo form) :=
  RoundTrip.ofForm rfl rfl id
theorem RoundTrip.getNodesState (form : FrameForm) : RoundTrip.Statement (.getNodesState form) :=
  RoundTrip.ofForm rfl rfl id
theorem RoundTrip.getGatewayState (form : FrameForm) : RoundTrip.Statement (.getGatewayState form) :=
  RoundTrip.ofForm rfl rfl id
theorem RoundTrip.removeNodes (form : FrameForm) : RoundTrip.Statement (.removeNodes form) :=
  RoundTrip.ofForm rfl rfl id
theorem RoundTrip.callGatewayFromNode (form : FrameForm) : RoundTrip.Statement (.callGatewayFromNode form) :=
  RoundTrip.ofForm rfl rfl id
theorem RoundTrip.reportNodesBatteryLevel (form : FrameForm) :
    RoundTrip.Statement (.reportNodesBatteryLevel form) :=
  RoundTrip.ofForm rfl rfl id

theorem RoundTrip.opOther (opcode : Byte) (form : FrameForm) : RoundTrip.Statement (.opOther opcode form) := by
  intro h
  simp only [Instr.wf, Bool.and_eq_true, Bool.not_eq_true'] at h
  exact RoundTrip.ofForm rfl (frameInstr_other opcode form h.1) (fun _ => h.2) (by simp [Instr.wf, h])

theorem RoundTrip.txStart (opcode : Byte) (n : BitVec 32) : RoundTrip.Statement (.txStart opcode n) := by
  intro _; simp [encodeInstr, decodeInput, decodeEvent]
theorem RoundTrip.txPayload (b : Byte) : RoundTrip.Statement (.txPayload b) := by
  intro _; simp [encodeInstr, decodeInput, decodeEvent]
theorem RoundTrip.rxByte (b : Byte) : RoundTrip.Statement (.rxByte b) := by
  intro _; simp [encodeInstr, decodeInput, decodeEvent]
theorem RoundTrip.rxEnd : RoundTrip.Statement .rxEnd := by
  intro _; simp [encodeInstr, decodeInput, decodeEvent]
theorem RoundTrip.rst : RoundTrip.Statement .rst := by
  intro _; simp [encodeInstr, decodeInput, decodeEvent]

end Sys2Proof.Laws
end

