-- ==== Sys2Proof/Laws/State.lean ====
section
/-! SUPPORT. One lemma for each field and each record update of the shared operations, so that no later
proof unfolds an update. -/

namespace Sys2Proof.Machine

@[simp] theorem TxUnit.emit_busy (bs : List Byte) (tx : TxUnit) : (TxUnit.emit bs tx).busy = tx.busy := rfl
@[simp] theorem TxUnit.emit_rem (bs : List Byte) (tx : TxUnit) : (TxUnit.emit bs tx).rem = tx.rem := rfl
@[simp] theorem TxUnit.emit_cse (bs : List Byte) (tx : TxUnit) : (TxUnit.emit bs tx).cse = tx.cse := rfl
@[simp] theorem TxUnit.emit_status (bs : List Byte) (tx : TxUnit) : (TxUnit.emit bs tx).status = tx.status := rfl
@[simp] theorem TxUnit.emit_out (bs : List Byte) (tx : TxUnit) : (TxUnit.emit bs tx).out = tx.out ++ bs := rfl

@[simp] theorem TxUnit.reportTooLong_busy (tx : TxUnit) : (TxUnit.reportTooLong tx).busy = tx.busy := rfl
@[simp] theorem TxUnit.reportTooLong_rem (tx : TxUnit) : (TxUnit.reportTooLong tx).rem = tx.rem := rfl
@[simp] theorem TxUnit.reportTooLong_cse (tx : TxUnit) : (TxUnit.reportTooLong tx).cse = tx.cse := rfl
@[simp] theorem TxUnit.reportTooLong_status (tx : TxUnit) : (TxUnit.reportTooLong tx).status = .payloadTooLong := rfl
@[simp] theorem TxUnit.reportTooLong_out (tx : TxUnit) : (TxUnit.reportTooLong tx).out = tx.out := rfl

@[simp] theorem TxUnit.clear_busy (tx : TxUnit) : (TxUnit.clear tx).busy = false := rfl
@[simp] theorem TxUnit.clear_rem (tx : TxUnit) : (TxUnit.clear tx).rem = 0 := rfl
@[simp] theorem TxUnit.clear_cse (tx : TxUnit) : (TxUnit.clear tx).cse = csInit := rfl
@[simp] theorem TxUnit.clear_status (tx : TxUnit) : (TxUnit.clear tx).status = .ok := rfl
@[simp] theorem TxUnit.clear_out (tx : TxUnit) : (TxUnit.clear tx).out = tx.out := rfl

@[simp] theorem RxUnit.vInit_pos (rx : RxUnit) : (RxUnit.vInit rx).pos = 0 := rfl
@[simp] theorem RxUnit.vInit_hdr (rx : RxUnit) : (RxUnit.vInit rx).hdr = rx.hdr := rfl
@[simp] theorem RxUnit.vInit_addr (rx : RxUnit) : (RxUnit.vInit rx).addr = rx.addr := rfl
@[simp] theorem RxUnit.vInit_opcode (rx : RxUnit) : (RxUnit.vInit rx).opcode = rx.opcode := rfl
@[simp] theorem RxUnit.vInit_lenLo (rx : RxUnit) : (RxUnit.vInit rx).lenLo = rx.lenLo := rfl
@[simp] theorem RxUnit.vInit_lenHi (rx : RxUnit) : (RxUnit.vInit rx).lenHi = rx.lenHi := rfl
@[simp] theorem RxUnit.vInit_d0 (rx : RxUnit) : (RxUnit.vInit rx).d0 = rx.d0 := rfl
@[simp] theorem RxUnit.vInit_d1 (rx : RxUnit) : (RxUnit.vInit rx).d1 = rx.d1 := rfl
@[simp] theorem RxUnit.vInit_cse (rx : RxUnit) : (RxUnit.vInit rx).cse = csInit := rfl
@[simp] theorem RxUnit.vInit_valid (rx : RxUnit) : (RxUnit.vInit rx).valid = rx.valid := rfl
@[simp] theorem RxUnit.vInit_dstat (rx : RxUnit) : (RxUnit.vInit rx).dstat = rx.dstat := rfl
@[simp] theorem RxUnit.vInit_csok (rx : RxUnit) : (RxUnit.vInit rx).csok = rx.csok := rfl
@[simp] theorem RxUnit.vInit_pbuf (rx : RxUnit) : (RxUnit.vInit rx).pbuf = rx.pbuf := rfl

@[simp] theorem RxUnit.vByte_pos (b : Byte) (rx : RxUnit) : (RxUnit.vByte b rx).pos = nextPos rx.pos := rfl
@[simp] theorem RxUnit.vByte_hdr (b : Byte) (rx : RxUnit) : (RxUnit.vByte b rx).hdr = rx.hdr := rfl
@[simp] theorem RxUnit.vByte_addr (b : Byte) (rx : RxUnit) : (RxUnit.vByte b rx).addr = rx.addr := rfl
@[simp] theorem RxUnit.vByte_opcode (b : Byte) (rx : RxUnit) : (RxUnit.vByte b rx).opcode = rx.opcode := rfl
@[simp] theorem RxUnit.vByte_lenLo (b : Byte) (rx : RxUnit) : (RxUnit.vByte b rx).lenLo = rx.lenLo := rfl
@[simp] theorem RxUnit.vByte_lenHi (b : Byte) (rx : RxUnit) : (RxUnit.vByte b rx).lenHi = rx.lenHi := rfl
@[simp] theorem RxUnit.vByte_d0 (b : Byte) (rx : RxUnit) : (RxUnit.vByte b rx).d0 = rx.d1 := rfl
@[simp] theorem RxUnit.vByte_d1 (b : Byte) (rx : RxUnit) : (RxUnit.vByte b rx).d1 = b := rfl
@[simp] theorem RxUnit.vByte_cse (b : Byte) (rx : RxUnit) : (RxUnit.vByte b rx).cse = (if 2 ≤ rx.pos.toNat then csAbsorb rx.d0 rx.cse else rx.cse) := rfl
@[simp] theorem RxUnit.vByte_valid (b : Byte) (rx : RxUnit) : (RxUnit.vByte b rx).valid = rx.valid := rfl
@[simp] theorem RxUnit.vByte_dstat (b : Byte) (rx : RxUnit) : (RxUnit.vByte b rx).dstat = rx.dstat := rfl
@[simp] theorem RxUnit.vByte_csok (b : Byte) (rx : RxUnit) : (RxUnit.vByte b rx).csok = rx.csok := rfl
@[simp] theorem RxUnit.vByte_pbuf (b : Byte) (rx : RxUnit) : (RxUnit.vByte b rx).pbuf = rx.pbuf := rfl

@[simp] theorem RxUnit.report_pos (d : DecodeStatus) (c : Bool) (rx : RxUnit) : (RxUnit.report d c rx).pos = 0 := rfl
@[simp] theorem RxUnit.report_hdr (d : DecodeStatus) (c : Bool) (rx : RxUnit) : (RxUnit.report d c rx).hdr = rx.hdr := rfl
@[simp] theorem RxUnit.report_addr (d : DecodeStatus) (c : Bool) (rx : RxUnit) : (RxUnit.report d c rx).addr = rx.addr := rfl
@[simp] theorem RxUnit.report_opcode (d : DecodeStatus) (c : Bool) (rx : RxUnit) : (RxUnit.report d c rx).opcode = rx.opcode := rfl
@[simp] theorem RxUnit.report_lenLo (d : DecodeStatus) (c : Bool) (rx : RxUnit) : (RxUnit.report d c rx).lenLo = rx.lenLo := rfl
@[simp] theorem RxUnit.report_lenHi (d : DecodeStatus) (c : Bool) (rx : RxUnit) : (RxUnit.report d c rx).lenHi = rx.lenHi := rfl
@[simp] theorem RxUnit.report_d0 (d : DecodeStatus) (c : Bool) (rx : RxUnit) : (RxUnit.report d c rx).d0 = rx.d0 := rfl
@[simp] theorem RxUnit.report_d1 (d : DecodeStatus) (c : Bool) (rx : RxUnit) : (RxUnit.report d c rx).d1 = rx.d1 := rfl
@[simp] theorem RxUnit.report_cse (d : DecodeStatus) (c : Bool) (rx : RxUnit) : (RxUnit.report d c rx).cse = csInit := rfl
@[simp] theorem RxUnit.report_valid (d : DecodeStatus) (c : Bool) (rx : RxUnit) : (RxUnit.report d c rx).valid = true := rfl
@[simp] theorem RxUnit.report_dstat (d : DecodeStatus) (c : Bool) (rx : RxUnit) : (RxUnit.report d c rx).dstat = d := rfl
@[simp] theorem RxUnit.report_csok (d : DecodeStatus) (c : Bool) (rx : RxUnit) : (RxUnit.report d c rx).csok = c := rfl
@[simp] theorem RxUnit.report_pbuf (d : DecodeStatus) (c : Bool) (rx : RxUnit) : (RxUnit.report d c rx).pbuf = rx.pbuf := rfl

@[simp] theorem RxUnit.cleared_pos (tick : Nat) : (RxUnit.cleared tick).pos = 0 := rfl
@[simp] theorem RxUnit.cleared_cse (tick : Nat) : (RxUnit.cleared tick).cse = csInit := rfl
@[simp] theorem RxUnit.cleared_valid (tick : Nat) : (RxUnit.cleared tick).valid = false := rfl
@[simp] theorem RxUnit.cleared_dstat (tick : Nat) : (RxUnit.cleared tick).dstat = .ok := rfl
@[simp] theorem RxUnit.cleared_csok (tick : Nat) : (RxUnit.cleared tick).csok = false := rfl
@[simp] theorem RxUnit.cleared_pbuf (tick : Nat) : (RxUnit.cleared tick).pbuf = [] := rfl

@[simp] theorem RxUnit.storeByte_pos (p : Nat) (b : Byte) (rx : RxUnit) : (rx.storeByte p b).pos = rx.pos := by
  unfold RxUnit.storeByte; split_ifs <;> first | rfl | (split <;> rfl)
@[simp] theorem RxUnit.storeByte_d0 (p : Nat) (b : Byte) (rx : RxUnit) : (rx.storeByte p b).d0 = rx.d0 := by
  unfold RxUnit.storeByte; split_ifs <;> first | rfl | (split <;> rfl)
@[simp] theorem RxUnit.storeByte_d1 (p : Nat) (b : Byte) (rx : RxUnit) : (rx.storeByte p b).d1 = rx.d1 := by
  unfold RxUnit.storeByte; split_ifs <;> first | rfl | (split <;> rfl)
@[simp] theorem RxUnit.storeByte_cse (p : Nat) (b : Byte) (rx : RxUnit) : (rx.storeByte p b).cse = rx.cse := by
  unfold RxUnit.storeByte; split_ifs <;> first | rfl | (split <;> rfl)
@[simp] theorem RxUnit.storeByte_valid (p : Nat) (b : Byte) (rx : RxUnit) : (rx.storeByte p b).valid = rx.valid := by
  unfold RxUnit.storeByte; split_ifs <;> first | rfl | (split <;> rfl)
@[simp] theorem RxUnit.storeByte_dstat (p : Nat) (b : Byte) (rx : RxUnit) : (rx.storeByte p b).dstat = rx.dstat := by
  unfold RxUnit.storeByte; split_ifs <;> first | rfl | (split <;> rfl)
@[simp] theorem RxUnit.storeByte_csok (p : Nat) (b : Byte) (rx : RxUnit) : (rx.storeByte p b).csok = rx.csok := by
  unfold RxUnit.storeByte; split_ifs <;> first | rfl | (split <;> rfl)

/-- The length registers decide where a byte is stored, and nothing else does. -/
theorem RxUnit.storeAddress_congr (p : Nat) (r r' : RxUnit) (hl : r.lenLo = r'.lenLo) (hh : r.lenHi = r'.lenHi) :
    r.storeAddress p = r'.storeAddress p := by
  have h : r.len = r'.len := by rw [RxUnit.len, RxUnit.len, hl, hh]
  unfold RxUnit.storeAddress
  rw [h]

end Sys2Proof.Machine
end

