-- ==== Sys2Proof/Laws/Rx.lean ====
section
/-! SUPPORT. What the RX unit's operations can do, byte by byte and for a whole chunk. -/

namespace Sys2Proof.Machine

theorem nextPos_toNat (p : BitVec 17) : (nextPos p).toNat = min (p.toNat + 1) 131071 := by
  simp only [nextPos, Config.posMax_eq, BitVec.toNat_ofNat]
  exact Nat.mod_eq_of_lt (by omega)

theorem RxUnit.len_lt (rx : RxUnit) : rx.len < 65536 := le16_lt _ _

/-- Where a byte is stored, and that it is inside the buffer. -/
theorem RxUnit.storeAddress_some {p a : Nat} {rx : RxUnit} (h : rx.storeAddress p = some a) :
    8 ≤ p ∧ a = p - 8 ∧ a < rx.len ∧ a < 65535 := by
  have hl := rx.len_lt
  unfold RxUnit.storeAddress at h
  split at h
  · rename_i hc
    cases h
    exact ⟨hc.1, rfl, hc.2, by omega⟩
  · cases h

section storeByte
variable (p : Nat) (b : Byte) (rx : RxUnit)

theorem RxUnit.storeByte_hdr : (rx.storeByte p b).hdr = if p = 0 then b else rx.hdr := by
  unfold RxUnit.storeByte; split_ifs <;> first | rfl | (split <;> rfl)

theorem RxUnit.storeByte_addr :
    (rx.storeByte p b).addr = if 1 ≤ p ∧ p ≤ 4 then setAddr (p - 1) b rx.addr else rx.addr := by
  unfold RxUnit.storeByte
  split_ifs <;> first | rfl | omega | (split <;> rfl)

theorem RxUnit.storeByte_opcode : (rx.storeByte p b).opcode = if p = 5 then b else rx.opcode := by
  unfold RxUnit.storeByte; split_ifs <;> first | rfl | omega | (split <;> rfl)

theorem RxUnit.storeByte_lenLo : (rx.storeByte p b).lenLo = if p = 6 then b else rx.lenLo := by
  unfold RxUnit.storeByte; split_ifs <;> first | rfl | omega | (split <;> rfl)

theorem RxUnit.storeByte_lenHi : (rx.storeByte p b).lenHi = if p = 7 then b else rx.lenHi := by
  unfold RxUnit.storeByte; split_ifs <;> first | rfl | omega | (split <;> rfl)

/-- The payload buffer after a byte: one write at the address the offset gives, or none. -/
theorem RxUnit.storeByte_pbuf :
    (rx.storeByte p b).pbuf =
      match rx.storeAddress p with
      | some a => rx.pbuf.write a b
      | none => rx.pbuf := by
  have hs : p < 8 → rx.storeAddress p = none := by
    intro h; unfold RxUnit.storeAddress; rw [if_neg (by omega)]
  unfold RxUnit.storeByte
  split_ifs
  all_goals first
    | (rw [hs (by omega)])
    | (cases rx.storeAddress p <;> rfl)

end storeByte

section byte
variable (b : Byte) (rx : RxUnit)

theorem RxUnit.byte_pos : (rx.byte b).pos = nextPos rx.pos := by simp [RxUnit.byte]
theorem RxUnit.byte_d0 : (rx.byte b).d0 = rx.d1 := by simp [RxUnit.byte]
theorem RxUnit.byte_d1 : (rx.byte b).d1 = b := by simp [RxUnit.byte]
theorem RxUnit.byte_cse :
    (rx.byte b).cse = if 2 ≤ rx.pos.toNat then csAbsorb rx.d0 rx.cse else rx.cse := by
  simp [RxUnit.byte]
theorem RxUnit.byte_valid : (rx.byte b).valid = false := by simp [RxUnit.byte]
theorem RxUnit.byte_dstat : (rx.byte b).dstat = rx.dstat := by simp [RxUnit.byte]
theorem RxUnit.byte_csok : (rx.byte b).csok = rx.csok := by simp [RxUnit.byte]
theorem RxUnit.byte_hdr : (rx.byte b).hdr = if rx.pos.toNat = 0 then b else rx.hdr := by
  simp [RxUnit.byte, RxUnit.storeByte_hdr]
theorem RxUnit.byte_addr :
    (rx.byte b).addr
      = if 1 ≤ rx.pos.toNat ∧ rx.pos.toNat ≤ 4 then setAddr (rx.pos.toNat - 1) b rx.addr else rx.addr := by
  simp [RxUnit.byte, RxUnit.storeByte_addr]
theorem RxUnit.byte_opcode : (rx.byte b).opcode = if rx.pos.toNat = 5 then b else rx.opcode := by
  simp [RxUnit.byte, RxUnit.storeByte_opcode]
theorem RxUnit.byte_lenLo : (rx.byte b).lenLo = if rx.pos.toNat = 6 then b else rx.lenLo := by
  simp [RxUnit.byte, RxUnit.storeByte_lenLo]
theorem RxUnit.byte_lenHi : (rx.byte b).lenHi = if rx.pos.toNat = 7 then b else rx.lenHi := by
  simp [RxUnit.byte, RxUnit.storeByte_lenHi]
theorem RxUnit.byte_pbuf :
    (rx.byte b).pbuf =
      match rx.storeAddress rx.pos.toNat with
      | some a => rx.pbuf.write a b
      | none => rx.pbuf := by
  rw [RxUnit.byte, RxUnit.storeByte_pbuf]
  rfl

/-- Every byte of the buffer after one `RX_BYTE`. -/
theorem RxUnit.byte_pbuf_read (a : Nat) :
    (rx.byte b).pbuf.read a =
      if 8 ≤ rx.pos.toNat ∧ rx.pos.toNat - 8 < rx.len ∧ a = rx.pos.toNat - 8 then some b
      else rx.pbuf.read a := by
  rw [RxUnit.byte_pbuf, RxUnit.storeAddress]
  split
  · rename_i x hx
    split at hx
    · cases hx
      rw [Memory.read_write]
      simp_all
    · cases hx
  · rename_i hx
    split at hx
    · cases hx
    · rw [if_neg]; rintro ⟨h1, h2, -⟩; simp_all

/-- With other contents in `PBUF` the byte goes to the same place, and nothing else differs. -/
theorem RxUnit.byte_withPbuf (m : Memory) :
    ({ rx with pbuf := m } : RxUnit).byte b =
      { rx.byte b with
        pbuf :=
          match rx.storeAddress rx.pos.toNat with
          | some a => m.write a b
          | none => m } := by
  have hp := RxUnit.byte_pbuf b { rx with pbuf := m }
  have hq : ∀ (p : Nat) (r : RxUnit) (n : Memory),
      ∃ n', ({ r with pbuf := n } : RxUnit).storeByte p b = { r.storeByte p b with pbuf := n' } := by
    intro p r n
    unfold RxUnit.storeByte RxUnit.storeAddress RxUnit.len
    split_ifs <;> exact ⟨_, rfl⟩
  obtain ⟨n', hn⟩ := hq rx.pos.toNat { rx.vByte b with valid := false } m
  have hb : ({ rx with pbuf := m } : RxUnit).byte b = { rx.byte b with pbuf := n' } := hn
  rw [hb] at hp ⊢
  exact congrArg (fun x => ({ rx.byte b with pbuf := x } : RxUnit)) hp

theorem RxUnit.inv_byte (h : rx.inv) : (rx.byte b).inv := by
  obtain ⟨h1, h2, h3⟩ := h
  refine ⟨fun hp => ?_, fun hv => ?_, ?_⟩
  · rw [RxUnit.byte_pos, nextPos_toNat] at hp
    rw [RxUnit.byte_cse, if_neg (by omega)]
    exact h1 (by omega)
  · rw [RxUnit.byte_valid] at hv; cases hv
  · rw [RxUnit.byte_pbuf]
    split
    · rename_i a ha
      exact Memory.wf_write _ _ _ h3 (RxUnit.storeAddress_some ha).2.2.2
    · exact h3

end byte

section endChunk
variable (sof : Byte) (rx : RxUnit)

/-- Everything `RX_END` does. -/
theorem RxUnit.endChunk_eq :
    rx.endChunk sof =
      { rx with dstat := rx.decodeStatus sof, csok := rx.vEnd, valid := true, cse := ⟨0, 0⟩, pos := 0 } := rfl

theorem RxUnit.inv_endChunk (h : rx.inv) : (rx.endChunk sof).inv :=
  ⟨fun _ => rfl, fun _ => rfl, h.2.2⟩

theorem RxUnit.idle_endChunk : (rx.endChunk sof).idle := ⟨rfl, rfl⟩

end endChunk

theorem RxUnit.inv_bytes (bs : List Byte) (rx : RxUnit) (h : rx.inv) :
    (bs.foldl (fun r b => r.byte b) rx).inv := by
  induction bs generalizing rx with
  | nil => exact h
  | cons b rest ih => exact ih _ (RxUnit.inv_byte b rx h)

theorem RxUnit.inv_chunk (sof : Byte) (bs : List Byte) (rx : RxUnit) (h : rx.inv) : (rx.chunk sof bs).inv :=
  RxUnit.inv_endChunk sof _ (RxUnit.inv_bytes bs rx h)

theorem RxUnit.inv_cleared (tick : Nat) : (RxUnit.cleared tick).inv :=
  ⟨fun _ => rfl, fun h => absurd h (by simp), Memory.wf_nil⟩

/-- Between chunks the unit holds the empty chunk. -/
theorem RxUnit.holds_nil (rx : RxUnit) (h : rx.idle) : rx.Holds [] where
  pos := by simp [h.1]
  valid := by simp
  cse := by simp [h.2]
  d1 := by simp
  d0 := by simp
  hdr := by simp
  addr := by intro i _ h; simp at h
  opcode := by simp
  lenLo := by simp
  lenHi := by simp
  pbuf := by intro j h; simp at h

theorem setAddr_toList (i : Nat) (b : Byte) (a : Address) (h : i < 4) :
    (setAddr i b a).toList = a.toList.set i b := by
  obtain _ | _ | _ | _ | i := i
  all_goals first | rfl | omega

/-- One byte more: what the unit holds grows by it. -/
theorem RxUnit.holds_byte (w : List Byte) (b : Byte) (rx : RxUnit) (h : rx.Holds w) :
    (rx.byte b).Holds (w ++ [b]) := by
  have hpos := h.pos
  simp only [Config.posMax_eq] at hpos
  have hlen : (w ++ [b]).length = w.length + 1 := by simp
  have hold : ∀ i, i < w.length → (w ++ [b])[i]? = w[i]? := fun i hi => List.getElem?_append_left hi
  have hnew : (w ++ [b])[w.length]? = some b := by simp
  have hget : ∀ i, i < w.length → (w ++ [b]).getD i 0 = w.getD i 0 := by
    intro i hi; rw [List.getD_eq_getElem?_getD, List.getD_eq_getElem?_getD, hold i hi]
  refine ⟨?_, ?_, ?_, ?_, ?_, ?_, ?_, ?_, ?_, ?_, ?_⟩
  · rw [RxUnit.byte_pos, nextPos_toNat, hlen, Config.posMax_eq]; omega
  · intro _; exact RxUnit.byte_valid b rx
  · rw [RxUnit.byte_cse, hlen]
    split
    · rename_i hp
      have h2 : 2 ≤ w.length := by omega
      have hd := h.d0 h2
      have ht : (w ++ [b]).take (w.length + 1 - 2) = w.take (w.length - 2) ++ [rx.d0] := by
        rw [List.take_append_of_le_length (by omega),
          show w.length + 1 - 2 = w.length - 2 + 1 by omega, List.take_add_one, hd]
        rfl
      rw [ht, compute_snoc, h.cse]
    · rename_i hp
      have h2 : w.length < 2 := by omega
      rw [h.cse, show w.length - 2 = 0 by omega, show w.length + 1 - 2 = 0 by omega]
      simp
  · intro _; rw [RxUnit.byte_d1, hlen]; simp
  · intro h2
    rw [hlen] at h2 ⊢
    rw [RxUnit.byte_d0, show w.length + 1 - 2 = w.length - 1 by omega, hold _ (by omega)]
    exact h.d1 (by omega)
  · intro _
    rw [RxUnit.byte_hdr]
    split
    · have : w.length = 0 := by omega
      rw [← this]; exact hnew
    · rw [hold 0 (by omega)]; exact h.hdr (by omega)
  · intro i hi hk
    rw [hlen] at hk
    rw [RxUnit.byte_addr]
    split
    · rename_i hp
      rw [setAddr_toList _ _ _ (by omega)]
      by_cases he : w.length = 1 + i
      · rw [← he, hnew, show rx.pos.toNat - 1 = i by omega, List.getElem?_set_self (by simp [Address.toList]; omega)]
      · rw [hold _ (by omega), h.addr i hi (by omega), List.getElem?_set_ne (by omega)]
    · rw [hold _ (by omega)]; exact h.addr i hi (by omega)
  · intro hk
    rw [hlen] at hk
    rw [RxUnit.byte_opcode]
    split
    · rw [show (5 : Nat) = w.length by omega]; exact hnew
    · rw [hold _ (by omega)]; exact h.opcode (by omega)
  · intro hk
    rw [hlen] at hk
    rw [RxUnit.byte_lenLo]
    split
    · rw [show (6 : Nat) = w.length by omega]; exact hnew
    · rw [hold _ (by omega)]; exact h.lenLo (by omega)
  · intro hk
    rw [hlen] at hk
    rw [RxUnit.byte_lenHi]
    split
    · rw [show (7 : Nat) = w.length by omega]; exact hnew
    · rw [hold _ (by omega)]; exact h.lenHi (by omega)
  · intro j hj hl
    rw [hlen] at hj
    rw [hget 6 (by omega), hget 7 (by omega)] at hl
    have hl' : rx.len = le16 (w.getD 6 0) (w.getD 7 0) := by
      rw [RxUnit.len, List.getD_eq_getElem?_getD, List.getD_eq_getElem?_getD, h.lenLo (by omega), h.lenHi (by omega)]
      rfl
    have hlt := rx.len_lt
    rw [RxUnit.byte_pbuf_read, hl']
    by_cases he : w.length = 8 + j
    · rw [if_pos ⟨by omega, by omega, by omega⟩, ← he]; exact hnew.symm
    · rw [if_neg (by omega), hold _ (by omega)]
      exact h.pbuf j (by omega) hl

/-- All the bytes of a chunk. -/
theorem RxUnit.holds_bytes (w bs : List Byte) (rx : RxUnit) (h : rx.Holds w) :
    (bs.foldl (fun r b => r.byte b) rx).Holds (w ++ bs) := by
  induction bs generalizing w rx with
  | nil => simpa using h
  | cons b rest ih =>
    have := ih (w ++ [b]) (rx.byte b) (RxUnit.holds_byte w b rx h)
    simpa using this

/-- The length registers of a chunk long enough to have them. -/
theorem RxUnit.Holds.len {w : List Byte} {rx : RxUnit} (h : rx.Holds w) (hk : 8 ≤ w.length) :
    rx.len = le16 (w.getD 6 0) (w.getD 7 0) := by
  rw [RxUnit.len, List.getD_eq_getElem?_getD, List.getD_eq_getElem?_getD, h.lenLo (by omega), h.lenHi (by omega)]
  rfl

/-- At the end of a chunk the verifier's comparison is `VERIFY` (R110). -/
theorem RxUnit.Holds.vEnd_eq {w : List Byte} {rx : RxUnit} (h : rx.Holds w) : rx.vEnd = verify w := by
  have hpos := h.pos
  simp only [Config.posMax_eq] at hpos
  unfold RxUnit.vEnd
  by_cases h2 : w.length < 2
  · rw [if_pos (by omega), verify, if_pos h2]
  · obtain ⟨x, s, a, rfl⟩ := exists_trailer w (by omega)
    have hx : (x ++ [s, a]).length = x.length + 2 := by simp
    have hd0 := h.d0 (by omega)
    have hd1 := h.d1 (by omega)
    have hc := h.cse
    rw [hx] at hd0 hd1 hc
    rw [show x.length + 2 - 2 = x.length by omega] at hd0 hc
    rw [show x.length + 2 - 1 = x.length + 1 by omega] at hd1
    simp at hd0 hd1 hc
    rw [if_neg (by omega), verify_append, hc, ← hd0, ← hd1, Bool.eq_iff_iff]
    generalize compute x = k
    cases k
    simp

/-- At the end of a chunk the decode status is that of `DECODE` (R149). -/
theorem RxUnit.Holds.decodeStatus_eq {w : List Byte} {rx : RxUnit} (h : rx.Holds w) (sof : Byte) :
    rx.decodeStatus sof = decodeCode sof w := by
  have hpos := h.pos
  simp only [Config.posMax_eq] at hpos
  unfold RxUnit.decodeStatus decodeCode decodeChunk
  simp only [Config.msgMinLength_eq]
  by_cases h10 : w.length < 10
  · rw [if_pos (show rx.pos.toNat < 10 by omega), if_pos h10]
  · have hh : w.getD 0 0 = rx.hdr := by
      rw [List.getD_eq_getElem?_getD, h.hdr (by omega)]; rfl
    have hl := h.len (by omega)
    have hlt := rx.len_lt
    rw [if_neg (show ¬ rx.pos.toNat < 10 by omega), if_neg h10, hh, ← hl]
    by_cases hs : rx.hdr ≠ sof
    · rw [if_pos hs, if_pos hs]
    · rw [if_neg hs, if_neg hs]
      by_cases hn : w.length ≠ 10 + rx.len
      · rw [if_pos (show rx.pos.toNat ≠ 10 + rx.len by omega), if_pos hn]
      · rw [if_neg (show ¬ rx.pos.toNat ≠ 10 + rx.len by omega), if_neg hn]

/-- What a successful `DECODE` says of the chunk. -/
theorem decodeChunk_ok {sof : Byte} {w : List Byte} {f : FrameView} (h : decodeChunk sof w = .ok f) :
    10 ≤ w.length ∧ w.getD 0 0 = sof ∧ w.length = 10 + le16 (w.getD 6 0) (w.getD 7 0)
      ∧ f = { address := ⟨w.getD 1 0, w.getD 2 0, w.getD 3 0, w.getD 4 0⟩, opcode := w.getD 5 0
              payloadLength := le16 (w.getD 6 0) (w.getD 7 0)
              payload := slice w 8 (8 + le16 (w.getD 6 0) (w.getD 7 0))
              checksumPair := (w.getD (8 + le16 (w.getD 6 0) (w.getD 7 0)) 0,
                w.getD (9 + le16 (w.getD 6 0) (w.getD 7 0)) 0) } := by
  unfold decodeChunk at h
  simp only [Config.msgMinLength_eq] at h
  by_cases h1 : w.length < 10
  · rw [if_pos h1] at h; cases h
  · rw [if_neg h1] at h
    by_cases h2 : w.getD 0 0 ≠ sof
    · rw [if_pos h2] at h; cases h
    · rw [if_neg h2] at h
      by_cases h3 : w.length ≠ 10 + le16 (w.getD 6 0) (w.getD 7 0)
      · rw [if_pos h3] at h; cases h
      · rw [if_neg h3] at h
        exact ⟨by omega, not_not.mp h2, not_not.mp h3, (Except.ok.inj h).symm⟩

/-- The status of `RECEIVE` is the first that applies of `DECODE`'s and `VERIFY`'s (R144, R203). -/
theorem receiveCode_eq (sof : Byte) (w : List Byte) :
    receiveCode sof w = rxStatusOf (decodeCode sof w) (verify w) := by
  unfold receiveCode receive decodeCode
  cases h : decodeChunk sof w with
  | ok f => cases verify w <;> rfl
  | error e =>
    have he : e ≠ .ok := by
      unfold decodeChunk at h
      dsimp only at h
      split_ifs at h <;> (cases h; simp)
    cases e with
    | ok => exact absurd rfl he
    | frameTooShort => rfl
    | badHeader => rfl
    | lengthMismatch => rfl

/-- The end of a chunk shows what the functions say of its bytes (R155). -/
theorem RxUnit.Holds.shows {w : List Byte} {rx : RxUnit} (h : rx.Holds w) :
    (rx.endChunk Config.sof).Shows w where
  valid := rfl
  dstat := h.decodeStatus_eq Config.sof
  csok := h.vEnd_eq
  status := by
    rw [receiveCode_eq, ← h.decodeStatus_eq Config.sof, ← h.vEnd_eq]; rfl
  view := by
    intro f hf
    have hd : decodeChunk Config.sof w = .ok f := by
      unfold receive at hf
      split at hf
      · cases hf
      · rename_i g hg
        split at hf
        · cases hf; exact hg
        · cases hf
    obtain ⟨h10, -, hn, rfl⟩ := decodeChunk_ok hd
    have hl := h.len (by omega)
    have hlen : (slice w 8 (8 + le16 (w.getD 6 0) (w.getD 7 0))).length = le16 (w.getD 6 0) (w.getD 7 0) := by
      simp only [slice, List.length_take, List.length_drop]; omega
    refine ⟨?_, ?_, hl, hlen, ?_⟩
    · have h0 : w[1]? = some rx.addr.b0 := h.addr 0 (by omega) (by omega)
      have h1 : w[2]? = some rx.addr.b1 := h.addr 1 (by omega) (by omega)
      have h2 : w[3]? = some rx.addr.b2 := h.addr 2 (by omega) (by omega)
      have h3 : w[4]? = some rx.addr.b3 := h.addr 3 (by omega) (by omega)
      simp only [List.getD_eq_getElem?_getD, h0, h1, h2, h3]
      rfl
    · show rx.opcode = w.getD 5 0
      rw [List.getD_eq_getElem?_getD, h.opcode (by omega)]; rfl
    · intro j hj
      have hj' : j < le16 (w.getD 6 0) (w.getD 7 0) := by rw [← hl]; exact hj
      refine (h.pbuf j (by omega) hj').trans ?_
      simp only [slice]
      rw [List.getElem?_take, if_pos (by omega), List.getElem?_drop]

/-- The bytes of a chunk after `w` have been received: every byte of the buffer, in one equation. -/
theorem RxUnit.bytes_pbuf_read (b w : List Byte) (rx : RxUnit) (h : rx.Holds w) (m : Memory)
    (h0 : ∀ a, rx.pbuf.read a =
      if a + 8 < w.length ∧ a < le16 (w.getD 6 0) (w.getD 7 0) then w[8 + a]? else m.read a) (a : Nat) :
    (b.foldl (fun r x => r.byte x) rx).pbuf.read a =
      if a + 8 < (w ++ b).length ∧ a < le16 ((w ++ b).getD 6 0) ((w ++ b).getD 7 0) then (w ++ b)[8 + a]?
      else m.read a := by
  induction b generalizing w rx with
  | nil => simpa using h0 a
  | cons x rest ih =>
    have hx := ih (w ++ [x]) (rx.byte x) (RxUnit.holds_byte w x rx h) ?_
    · simpa using hx
    · intro a
      have hpos := h.pos
      simp only [Config.posMax_eq] at hpos
      have hlt := le16_lt (w.getD 6 0) (w.getD 7 0)
      have hlx : (w ++ [x]).length = w.length + 1 := by simp
      rw [RxUnit.byte_pbuf_read, hlx]
      by_cases h8 : 8 ≤ w.length
      · have hl := h.len h8
        have hg : ∀ i, i < 8 → (w ++ [x]).getD i 0 = w.getD i 0 := by
          intro i hi
          rw [List.getD_eq_getElem?_getD, List.getD_eq_getElem?_getD, List.getElem?_append_left (by omega)]
        rw [hg 6 (by omega), hg 7 (by omega), hl]
        by_cases ha : a + 8 = w.length
        · by_cases hal : a < le16 (w.getD 6 0) (w.getD 7 0)
          · rw [if_pos ⟨by omega, by omega, by omega⟩, if_pos ⟨by omega, hal⟩, show 8 + a = w.length by omega]
            simp
          · rw [if_neg (by omega), if_neg (by omega), h0, if_neg (by omega)]
        · rw [if_neg (by omega), h0]
          by_cases hc : a + 8 < w.length ∧ a < le16 (w.getD 6 0) (w.getD 7 0)
          · rw [if_pos hc, if_pos ⟨by omega, hc.2⟩, List.getElem?_append_left (by omega)]
          · rw [if_neg hc, if_neg (by omega)]
      · rw [if_neg (by omega), h0, if_neg (by omega), if_neg (by omega)]

/-- Every byte of the buffer after a whole chunk received from between chunks. -/
theorem RxUnit.chunk_pbuf_read (b : List Byte) (rx : RxUnit) (h : rx.idle) (a : Nat) :
    (rx.chunk Config.sof b).pbuf.read a =
      if a + 8 < b.length ∧ a < le16 (b.getD 6 0) (b.getD 7 0) then b[8 + a]? else rx.pbuf.read a := by
  have hb := RxUnit.bytes_pbuf_read b [] rx (RxUnit.holds_nil rx h) rx.pbuf (by intro a; simp) a
  rw [List.nil_append] at hb
  exact hb

/-- A whole chunk received from between chunks (R155). -/
theorem RxUnit.shows_chunk (w : List Byte) (rx : RxUnit) (h : rx.idle) : (rx.chunk Config.sof w).Shows w := by
  have hh := RxUnit.holds_bytes [] w rx (RxUnit.holds_nil rx h)
  rw [List.nil_append] at hh
  exact hh.shows

/-- The addresses that the bytes of a chunk are stored at do not depend on what `PBUF` holds: with other
contents nothing else differs, the stored bytes are the same and the other addresses read as before. -/
theorem RxUnit.bytes_withPbuf (bs : List Byte) (rx : RxUnit) :
    ∃ stored : Nat → Prop,
      (∀ a, ¬ stored a → (bs.foldl (fun r b => r.byte b) rx).pbuf.read a = rx.pbuf.read a)
      ∧ ∀ m : Memory, ∃ m',
          bs.foldl (fun r b => r.byte b) { rx with pbuf := m }
            = { bs.foldl (fun r b => r.byte b) rx with pbuf := m' }
          ∧ (∀ a, stored a → m'.read a = (bs.foldl (fun r b => r.byte b) rx).pbuf.read a)
          ∧ ∀ a, ¬ stored a → m'.read a = m.read a := by
  induction bs generalizing rx with
  | nil => exact ⟨fun _ => False, fun _ _ => rfl, fun m => ⟨m, rfl, fun _ h => h.elim, fun _ _ => rfl⟩⟩
  | cons b rest ih =>
    obtain ⟨stored, h1, h2⟩ := ih (rx.byte b)
    have hother : ∀ (m : Memory) a, ¬ rx.storeAddress rx.pos.toNat = some a →
        (match rx.storeAddress rx.pos.toNat with
          | some x => m.write x b
          | none => m : Memory).read a = m.read a := by
      intro m a ha
      split
      · rename_i x hx
        exact Memory.read_write_other m x a b (fun h => ha (by rw [hx, h]))
      · rfl
    refine ⟨fun a => stored a ∨ rx.storeAddress rx.pos.toNat = some a, fun a ha => ?_, fun m => ?_⟩
    · have ha := not_or.mp ha
      rw [List.foldl_cons, h1 a ha.1, RxUnit.byte_pbuf]
      exact hother rx.pbuf a ha.2
    · rw [List.foldl_cons, List.foldl_cons, RxUnit.byte_withPbuf]
      obtain ⟨m', e, p, q⟩ := h2 (match rx.storeAddress rx.pos.toNat with
        | some x => m.write x b
        | none => m)
      refine ⟨m', e, fun a ha => ?_, fun a ha => ?_⟩
      · by_cases hd : stored a
        · exact p a hd
        · have hs := ha.resolve_left hd
          rw [q a hd, h1 a hd, RxUnit.byte_pbuf, hs]
          simp
      · have ha := not_or.mp ha
        rw [q a ha.1]
        exact hother m a ha.2

/-- The same for a whole chunk with its end. -/
theorem RxUnit.chunk_withPbuf (bs : List Byte) (rx : RxUnit) :
    ∃ stored : Nat → Prop,
      (∀ a, ¬ stored a → (rx.chunk Config.sof bs).pbuf.read a = rx.pbuf.read a)
      ∧ ∀ m : Memory, ∃ m',
          ({ rx with pbuf := m } : RxUnit).chunk Config.sof bs = { rx.chunk Config.sof bs with pbuf := m' }
          ∧ (∀ a, stored a → m'.read a = (rx.chunk Config.sof bs).pbuf.read a)
          ∧ ∀ a, ¬ stored a → m'.read a = m.read a := by
  obtain ⟨stored, h1, h2⟩ := RxUnit.bytes_withPbuf bs rx
  refine ⟨stored, h1, fun m => ?_⟩
  obtain ⟨m', e, p, q⟩ := h2 m
  refine ⟨m', ?_, p, q⟩
  unfold RxUnit.chunk
  rw [e]
  rfl

end Sys2Proof.Machine
end

