-- ==== Sys2Proof/Laws/Tx.lean ====
section
/-! SUPPORT. What the TX unit's two operations can do, and a whole payload in one. -/

namespace Sys2Proof.Machine

/-- The sums over the eight header bytes, in the closed form R124 prints. -/
theorem compute_frameHeader (sof op : Byte) (len : Nat) :
    compute (frameHeader sof op len)
      = ⟨sof + op + lo8 len + hi8 len, 8 * sof + 3 * op + 2 * lo8 len + hi8 len⟩ := by
  simp only [compute, frameHeader, List.foldl, csAbsorb, csInit_eq, Cse.mk.injEq]
  constructor <;> (generalize lo8 len = l; generalize hi8 len = h; bv_omega)

@[simp] theorem frameHeader_length (sof op : Byte) (len : Nat) : (frameHeader sof op len).length = 8 := rfl

/-- Everything an accepted `TX_START` with a payload does. -/
theorem TxUnit.start_data (sof op : Byte) (n : BitVec 32) (tx : TxUnit) (h0 : n ≠ 0) (h : n.toNat ≤ 65535) :
    tx.start sof op n =
      { busy := true, rem := BitVec.ofNat 16 n.toNat, cse := compute (frameHeader sof op n.toNat)
        status := .ok, out := tx.out ++ frameHeader sof op n.toNat } := by
  have h1 : ¬ n.toNat > Config.maxPayload := Nat.not_lt.mpr h
  simp only [TxUnit.start, if_neg h1, if_neg h0]
  rfl

/-- Everything a `TX_START` without payload does. -/
theorem TxUnit.start_empty (sof op : Byte) (tx : TxUnit) :
    tx.start sof op 0 = .idleWith (tx.out ++ (frameHeader sof op 0 ++ csResult (compute (frameHeader sof op 0)))) := by
  simp [TxUnit.start, TxUnit.idleWith]

/-- Everything a `TX_START` that is too long does. -/
theorem TxUnit.start_tooLong (sof op : Byte) (n : BitVec 32) (tx : TxUnit) (h : 65535 < n.toNat) :
    tx.start sof op n = tx.reportTooLong := by
  simp [TxUnit.start, h]

/-- Everything the last `TX_PAYLOAD` of a frame does. -/
theorem TxUnit.payload_last (b : Byte) (tx : TxUnit) (h : tx.rem = 1) :
    tx.payload b =
      { busy := false, rem := 0, cse := ⟨0, 0⟩, status := tx.status
        out := tx.out ++ (b :: csResult (csAbsorb b tx.cse)) } := by
  simp [TxUnit.payload, h]

/-- Everything any other `TX_PAYLOAD` does. -/
theorem TxUnit.payload_more (b : Byte) (tx : TxUnit) (h : tx.rem ≠ 1) :
    tx.payload b =
      { busy := tx.busy, rem := tx.rem - 1, cse := csAbsorb b tx.cse, status := tx.status
        out := tx.out ++ [b] } := by
  simp only [TxUnit.payload, if_neg h]
  rfl

/-- All the payload bytes that are owed, taken one after the other, end the frame with its trailer. -/
theorem TxUnit.payload_all (e p : List Byte) (tx : TxUnit) (hb : tx.busy = true) (hp : p ≠ [])
    (hr : tx.rem.toNat = p.length) (hc : tx.cse = compute e) :
    p.foldl (fun t b => t.payload b) tx =
      { busy := false, rem := 0, cse := ⟨0, 0⟩, status := tx.status
        out := tx.out ++ (p ++ csResult (compute (e ++ p))) } := by
  induction p generalizing tx e with
  | nil => exact absurd rfl hp
  | cons b rest ih =>
    rw [List.foldl_cons]
    cases rest with
    | nil =>
      have h1 : tx.rem = 1 := by apply BitVec.eq_of_toNat_eq; simpa using hr
      simp [TxUnit.payload_last, h1, hc]
    | cons b' rest' =>
      have h1 : tx.rem ≠ 1 := by intro h; rw [h] at hr; simp at hr
      have hm := TxUnit.payload_more b tx h1
      have hrem : (tx.payload b).rem.toNat = (b' :: rest').length := by
        rw [hm]
        have := tx.rem.isLt
        simp only [List.length_cons] at hr ⊢
        bv_omega
      rw [ih (e ++ [b]) (tx.payload b) (by rw [hm]; exact hb) (by simp) hrem (by rw [hm, compute_snoc, hc]), hm]
      simp

/-- Sending a payload that fits, from `TX_IDLE`, emits the frame `ENCODE` gives. -/
theorem TxUnit.send_all (sof op : Byte) (p : List Byte) (tx : TxUnit) (h : p.length ≤ 65535) :
    p.foldl (fun t b => t.payload b) (tx.start sof op (BitVec.ofNat 32 p.length)) =
      .idleWith (tx.out ++ (frameHeader sof op p.length ++ p
        ++ csResult (compute (frameHeader sof op p.length ++ p)))) := by
  have hn : (BitVec.ofNat 32 p.length).toNat = p.length := by
    rw [BitVec.toNat_ofNat]; exact Nat.mod_eq_of_lt (by omega)
  cases p with
  | nil => exact (TxUnit.start_empty sof op tx).trans (by simp)
  | cons b rest =>
    have h0 : BitVec.ofNat 32 (b :: rest).length ≠ 0 := by
      intro hz; rw [hz] at hn; simp at hn
    rw [TxUnit.start_data sof op _ tx h0 (by omega), hn]
    rw [TxUnit.payload_all (frameHeader sof op (b :: rest).length) (b :: rest) _ rfl (by simp) _ rfl]
    · simp [TxUnit.idleWith]
    · rw [BitVec.toNat_ofNat]; exact Nat.mod_eq_of_lt (by omega)

theorem TxUnit.inv_idle (tx : TxUnit) (hb : tx.busy = false) (hr : tx.rem = 0) (hc : tx.cse = ⟨0, 0⟩) : tx.inv := by
  simp [TxUnit.inv, hb, hr, hc]

/-- `TX_START` keeps the invariant of an idle unit. -/
theorem TxUnit.inv_start (sof op : Byte) (n : BitVec 32) (tx : TxUnit) (h : tx.inv) : (tx.start sof op n).inv := by
  by_cases hl : n.toNat ≤ 65535
  · by_cases h0 : n = 0
    · subst h0; rw [TxUnit.start_empty]; exact TxUnit.inv_idle _ rfl rfl rfl
    · rw [TxUnit.start_data sof op n tx h0 hl]
      have : 0 < n.toNat := by
        rcases Nat.eq_zero_or_pos n.toNat with hz | hz
        · exact absurd (BitVec.eq_of_toNat_eq (by simpa using hz)) h0
        · exact hz
      simp [TxUnit.inv]; omega
  · rw [TxUnit.start_tooLong sof op n tx (by omega)]
    simpa [TxUnit.inv] using h

/-- `TX_PAYLOAD` keeps the invariant of a busy unit. -/
theorem TxUnit.inv_payload (b : Byte) (tx : TxUnit) (h : tx.inv) (hb : tx.busy = true) : (tx.payload b).inv := by
  by_cases h1 : tx.rem = 1
  · rw [TxUnit.payload_last b tx h1]; exact TxUnit.inv_idle _ rfl rfl rfl
  · rw [TxUnit.payload_more b tx h1]
    have hr := h.1.mp hb
    have h1' : tx.rem.toNat ≠ 1 := fun hh => h1 (BitVec.eq_of_toNat_eq (by simpa using hh))
    refine ⟨⟨fun _ => ?_, fun _ => hb⟩, fun hf => ?_⟩
    · show 1 ≤ (tx.rem - 1).toNat
      bv_omega
    · exact absurd (hb.symm.trans hf) (by simp)

end Sys2Proof.Machine
end

