-- ==== Sys2Proof/Laws/Step.lean ====
section
/-! SUPPORT. Once for all rows: what an instruction can do to the state. -/

namespace Sys2Proof.Machine

/-- Everything a frame row can do in its send form: it acts on the TX unit alone, and depends on it alone. -/
theorem passFrame_send (op : Byte) (p : List Byte) (tx : TxUnit) :
    (∃ tx', (∀ rx q k, passFrame op (.send p) ⟨tx, rx, q, k⟩ = .next ⟨tx', rx, q, k⟩) ∧ (tx.inv → tx'.inv))
    ∨ (∃ r, ∀ rx q k, passFrame op (.send p) ⟨tx, rx, q, k⟩ = .refused r) := by
  simp only [passFrame, sendFrame]
  by_cases hb : tx.busy = true
  · exact .inr ⟨.txStartWhileBusy, fun rx q k => if_pos hb⟩
  · by_cases hl : p.length > Config.maxPayload
    · refine .inl ⟨tx.reportTooLong, fun rx q k => (if_neg hb).trans (if_pos hl), fun h => ?_⟩
      simpa [TxUnit.inv] using h
    · refine .inl ⟨_, fun rx q k => (if_neg hb).trans (if_neg hl), fun _ => ?_⟩
      show (p.foldl (fun t b => t.payload b) (tx.start Config.sof op (BitVec.ofNat 32 p.length))).inv
      rw [TxUnit.send_all Config.sof op p tx (by simpa using hl)]
      exact TxUnit.inv_idle _ rfl rfl rfl

/-- Everything a frame row can do in its receive form. -/
theorem passFrame_recv (op : Byte) (f : FrameFields) (rx : RxUnit) :
    ∃ rx', (∀ tx q k, passFrame op (.recv f) ⟨tx, rx, q, k⟩ = .next ⟨tx, rx', q, k⟩) ∧ (rx.inv → rx'.inv) :=
  ⟨rx.chunk Config.sof (f.bytes op), fun _ _ _ => rfl, RxUnit.inv_chunk Config.sof _ rx⟩

/-- Everything a TX instruction can do: it acts on the TX unit alone, and depends on it alone. -/
theorem exec_tx {i : Instr} (h : isTx i = true) (tx : TxUnit) :
    (∃ tx', (∀ rx q k, exec i ⟨tx, rx, q, k⟩ = .next ⟨tx', rx, q, k⟩) ∧ (tx.inv → tx'.inv))
    ∨ (∃ r, ∀ rx q k, exec i ⟨tx, rx, q, k⟩ = .refused r) := by
  cases i with
  | refreshNodesInfo form | setDateTime form | getNodesInfo form | getNodesState form | getGatewayState form
  | removeNodes form | callGatewayFromNode form | reportNodesBatteryLevel form | opOther op form =>
    cases form with
    | send p => exact passFrame_send _ p tx
    | recv f => exact absurd h (by simp [isTx, formIsTx])
  | txStart op n =>
    by_cases hb : tx.busy = true
    · exact .inr ⟨.txStartWhileBusy, fun rx q k => if_pos hb⟩
    · exact .inl ⟨tx.start Config.sof op n, fun rx q k => if_neg hb, TxUnit.inv_start Config.sof op n tx⟩
  | txPayload b =>
    by_cases hb : tx.busy = true
    · exact .inl ⟨tx.payload b, fun rx q k => if_pos hb, fun hi => TxUnit.inv_payload b tx hi hb⟩
    · exact .inr ⟨.txPayloadWhileIdle, fun rx q k => if_neg hb⟩
  | rxByte b => exact absurd h (by simp [isTx])
  | rxEnd => exact absurd h (by simp [isTx])
  | rst => exact absurd h (by simp [isTx])

/-- Everything an RX instruction can do: it always completes, and acts on the RX unit alone. -/
theorem exec_rx {i : Instr} (h : isRx i = true) (rx : RxUnit) :
    ∃ rx', (∀ tx q k, exec i ⟨tx, rx, q, k⟩ = .next ⟨tx, rx', q, k⟩) ∧ (rx.inv → rx'.inv) := by
  cases i with
  | refreshNodesInfo form | setDateTime form | getNodesInfo form | getNodesState form | getGatewayState form
  | removeNodes form | callGatewayFromNode form | reportNodesBatteryLevel form | opOther op form =>
    cases form with
    | send p => exact absurd h (by simp [isRx, isTx, formIsTx])
    | recv f => exact passFrame_recv _ f rx
  | txStart op n => exact absurd h (by simp [isRx, isTx])
  | txPayload b => exact absurd h (by simp [isRx, isTx])
  | rxByte b => exact ⟨_, fun _ _ _ => rfl, RxUnit.inv_byte b rx⟩
  | rxEnd => exact ⟨_, fun _ _ _ => rfl, RxUnit.inv_endChunk Config.sof rx⟩
  | rst => exact absurd h (by simp [isRx])

/-- An instruction belongs to the TX unit, to the RX unit, or is `RST`. -/
theorem tx_or_rx_or_rst (i : Instr) : isTx i = true ∨ isRx i = true ∨ i = .rst := by
  by_cases h : isTx i = true
  · exact .inl h
  · by_cases hr : i = .rst
    · exact .inr (.inr hr)
    · exact .inr (.inl (by simp [isRx, h, hr]))

/-- What `RST` does. -/
theorem exec_rst (s : State) :
    exec .rst s = .next { s with tx := s.tx.clear, rx := .cleared s.freeTick, freeTick := s.freeTick + 10 } := rfl

@[simp] theorem runInstrs_nil (s : State) : runInstrs [] s = .next s := rfl

/-- The first instruction of a run completed. -/
theorem runInstrs_cons_next {i : Instr} {rest : List Instr} {s t : State} (h : exec i s = .next t) :
    runInstrs (i :: rest) s = runInstrs rest t := by
  simp [runInstrs, h]

/-- A run is its first part, then the rest. -/
theorem runInstrs_append_next {a b : List Instr} {s t : State} (h : runInstrs a s = .next t) :
    runInstrs (a ++ b) s = runInstrs b t := by
  induction a generalizing s with
  | nil => cases h; rfl
  | cons i rest ih =>
    simp only [List.cons_append, runInstrs] at h ⊢
    split at h
    · exact ih h
    · cases h
    · cases h

end Sys2Proof.Machine
end

