-- ==== Sys2Proof/Laws/Run.lean ====
section
/-! SUPPORT. Lists of events in one equation each, the frame `ENCODE` gives, and the checksum of a
concatenation. -/

namespace Sys2Proof.Machine

/-- What an accepted `TX_START` is. -/
theorem exec_txStart_next {op : Byte} {n : BitVec 32} {s t : State} (h : exec (.txStart op n) s = .next t) :
    s.tx.busy = false ∧ t = { s with tx := s.tx.start Config.sof op n } := by
  have h' : (if s.tx.busy then _ else _) = _ := h
  split at h'
  · cases h'
  · rename_i hb
    injection h' with h'
    exact ⟨by simpa using hb, h'.symm⟩

/-- What an accepted `TX_PAYLOAD` is. -/
theorem exec_txPayload_next {b : Byte} {s t : State} (h : exec (.txPayload b) s = .next t) :
    s.tx.busy = true ∧ t = { s with tx := s.tx.payload b } := by
  have h' : (if s.tx.busy then _ else _) = _ := h
  split at h'
  · rename_i hb
    injection h' with h'
    exact ⟨by simpa using hb, h'.symm⟩
  · cases h'

/-- The row of any opcode is the shared operation with that opcode. -/
theorem exec_frameInstr (op : Byte) (form : FrameForm) (s : State) :
    exec (frameInstr op form) s = passFrame op form s := by
  rcases frameInstr_cases op form with ⟨h, e⟩ | ⟨h, e⟩ | ⟨h, e⟩ | ⟨h, e⟩ | ⟨h, e⟩ | ⟨h, e⟩ | ⟨h, e⟩ | ⟨h, e⟩ | ⟨h, e⟩ <;>
    (rw [e]; try subst h) <;> rfl

/-- The byte events of a chunk. -/
theorem runInstrs_rxBytes (b : List Byte) (s : State) :
    runInstrs (b.map .rxByte) s = .next { s with rx := b.foldl (fun r x => r.byte x) s.rx } := by
  induction b generalizing s with
  | nil => rfl
  | cons x rest ih =>
    rw [List.map_cons, runInstrs_cons_next (t := { s with rx := s.rx.byte x }) rfl, ih]
    rfl

/-- The events of a `RECV`. -/
theorem runInstrs_recv (b : List Byte) (s : State) :
    runInstrs (recvEvents b) s = .next { s with rx := s.rx.chunk Config.sof b } := by
  rw [recvEvents, runInstrs_append_next (runInstrs_rxBytes b s)]
  rfl

/-- Payload events, as many as are owed or fewer. -/
theorem runInstrs_txPayloads (b : List Byte) (s : State) (hb : s.tx.busy = true)
    (hr : b.length ≤ s.tx.rem.toNat) :
    runInstrs (b.map .txPayload) s = .next { s with tx := b.foldl (fun r x => r.payload x) s.tx } := by
  induction b generalizing s with
  | nil => rfl
  | cons x rest ih =>
    have hx : exec (.txPayload x) s = .next { s with tx := s.tx.payload x } := if_pos hb
    rw [List.map_cons, runInstrs_cons_next hx]
    cases rest with
    | nil => rfl
    | cons y rest' =>
      have h1 : s.tx.rem ≠ 1 := by intro h; rw [h] at hr; simp at hr
      have hm := TxUnit.payload_more x s.tx h1
      have hl : (y :: rest').length ≤ (s.tx.payload x).rem.toNat := by
        rw [hm]
        have := s.tx.rem.isLt
        simp only [List.length_cons] at hr ⊢
        bv_omega
      rw [ih _ (by show (s.tx.payload x).busy = true; rw [hm]; exact hb) hl]
      rfl

/-- Payload bytes that do not end the frame: registers and output in one equation. -/
theorem TxUnit.payload_some (q e : List Byte) (tx : TxUnit) (hl : q.length < tx.rem.toNat)
    (hc : tx.cse = compute e) :
    q.foldl (fun t b => t.payload b) tx =
      { tx with rem := BitVec.ofNat 16 (tx.rem.toNat - q.length), cse := compute (e ++ q)
                out := tx.out ++ q } := by
  induction q generalizing tx e with
  | nil => cases tx; simp_all
  | cons x rest ih =>
    have hlt := tx.rem.isLt
    simp only [List.length_cons] at hl
    have h1 : tx.rem ≠ 1 := by intro h; rw [h] at hl; simp at hl
    have hm := TxUnit.payload_more x tx h1
    have hr : (tx.payload x).rem.toNat = tx.rem.toNat - 1 := by rw [hm]; simp only; bv_omega
    rw [List.foldl_cons, ih (e ++ [x]) (tx.payload x) (by omega) (by rw [hm, compute_snoc, hc]), hr, hm]
    simp [Nat.sub_sub, Nat.add_comm]

/-- The frame of a payload that fits. -/
theorem encodeFrame_ok (sof op : Byte) (p : List Byte) (h : p.length ≤ 65535) :
    encodeFrame sof op p = .ok (frameHeader sof op p.length ++ p
      ++ csResult (compute (frameHeader sof op p.length ++ p))) := by
  unfold encodeFrame
  rw [if_neg (by simpa using h)]

/-- The events of a `SEND` from `TX_IDLE`. -/
theorem runInstrs_send (op : Byte) (p : List Byte) (s : State) (hb : s.tx.busy = false) (h : p.length ≤ 65535) :
    runInstrs (sendEvents op p) s = .next { s with
      tx := .idleWith (s.tx.out ++ (frameHeader Config.sof op p.length ++ p
        ++ csResult (compute (frameHeader Config.sof op p.length ++ p)))) } := by
  have hn : (BitVec.ofNat 32 p.length).toNat = p.length := by
    rw [BitVec.toNat_ofNat]; exact Nat.mod_eq_of_lt (by omega)
  have h1 : exec (.txStart op (BitVec.ofNat 32 p.length)) s
      = .next { s with tx := s.tx.start Config.sof op (BitVec.ofNat 32 p.length) } := if_neg (by simp [hb])
  rw [sendEvents, runInstrs_cons_next h1, ← TxUnit.send_all _ _ _ _ h]
  cases p with
  | nil => rfl
  | cons b rest =>
    have h0 : BitVec.ofNat 32 (b :: rest).length ≠ 0 := by
      intro hz; rw [hz] at hn; simp at hn
    have hs := TxUnit.start_data Config.sof op _ s.tx h0 (by omega)
    apply runInstrs_txPayloads
    · show (s.tx.start _ _ _).busy = true; rw [hs]
    · show _ ≤ (s.tx.start _ _ _).rem.toNat
      rw [hs]
      simp only [hn]
      rw [BitVec.toNat_ofNat, Nat.mod_eq_of_lt (by omega)]

/-- Absorbing from any pair of accumulators. -/
theorem foldl_absorb (y : List Byte) (c : Cse) :
    y.foldl (fun c b => csAbsorb b c) c =
      ⟨c.sum + (compute y).sum, c.add + BitVec.ofNat 8 y.length * c.sum + (compute y).add⟩ := by
  induction y using List.reverseRecOn generalizing c with
  | nil => cases c; simp
  | append_singleton y b ih =>
    rw [List.foldl_append, ih]
    simp only [List.foldl, compute_snoc]
    simp only [csAbsorb, Cse.mk.injEq, List.length_append, List.length_cons, List.length_nil]
    constructor
    · ring
    · have : BitVec.ofNat 8 (y.length + (0 + 1)) = BitVec.ofNat 8 y.length + 1 := by
        apply BitVec.eq_of_toNat_eq; simp [BitVec.toNat_ofNat]
      rw [this]; ring

end Sys2Proof.Machine
end

