-- ==== Sys2Proof/Tests/Slice0.lean ====
section
/-! SUPPORT. The package's own tests. Expected values are those of spec/95_test_vectors.md (the id stands in
the name) or follow by hand from the rule cited; then a witness for the hypotheses of each obligation. -/

namespace Sys2Proof.Tests

open Sys2Proof Sys2Proof.Machine

/-- The next state, if there is one. -/
def nextOf : Host.Outcome State Fault Refusal → Option State
  | .next t => some t
  | .fault _ => none
  | .refused _ => none

/-- A TX unit in `TX_DATA` that owes `n` bytes, after the header of V-TX-1. -/
def txData (n : BitVec 16) : TxUnit :=
  { busy := true, rem := n, cse := ⟨0xB1, 0x63⟩, status := .ok, out := [] }

/-- The reset state with the TX unit in `TX_DATA`. -/
def sending (n : BitVec 16) : State := { State.reset with tx := txData n }

/-- The reset state with the RX unit at offset `p` of a chunk with this length field. -/
def receiving (p : BitVec 17) (lo hi : Byte) : State :=
  { State.reset with rx := { RxUnit.reset with pos := p, lenLo := lo, lenHi := hi } }

/-- A frame's fields with zero address. -/
def fieldsOf (header : Byte) (payload : List Byte) (s a : Byte) : FrameFields :=
  { header := header, address := ⟨0, 0, 0, 0⟩, payloadLength := BitVec.ofNat 16 payload.length
    payload := payload, trailerSum := s, trailerAdd := a }

/-- What a received frame leaves in the field registers, and `PBUF`. -/
def viewAfter (i : Instr) : Option (Address × Byte × Nat × Memory) :=
  (nextOf (exec i .reset)).map fun t => (t.rx.addr, t.rx.opcode, t.rx.len, t.rx.pbuf)

/-- What a sent frame puts on `TX_OUT` between the marker and the trailer. -/
def sentMiddle (i : Instr) : Option (List Byte) :=
  (nextOf (exec i .reset)).map fun t => (t.tx.out.drop 1).take (t.tx.out.length - 3)

/-! ### Well-formedness -/

theorem test_wf_other_refuses_catalog_opcodes :
    ∀ op ∈ Config.catalogOpcodes, (Instr.opOther op (.send [])).wf = false := by decide

theorem test_wf_other_accepts_unknown : (Instr.opOther 0x7F (.send [])).wf = true := by decide

theorem test_wf_refuses_length_field_that_does_not_count_the_payload :
    (Instr.getNodesInfo (.recv { fieldsOf 0xAA [0x01] 0 0 with payloadLength := 2 })).wf = false := by decide

theorem test_wf_other_refuses_wrong_length :
    (Instr.opOther 0x7F (.recv { fieldsOf 0xAA [] 0 0 with payloadLength := 256 })).wf = false := by decide

/-! ### Decoding, the words written out from 30_encoding.md R77 and 20_memory.md R56 -/

theorem test_decode_tx_start : decodeEvent (2 * 2048 + 0x05 * 8 + 0b001) = .ok (.txStart 0x05 2) := by decide

theorem test_decode_tx_start_65536 : decodeEvent 0x8000001 = .ok (.txStart 0x00 65536) := by decide

theorem test_decode_tx_start_65535 : decodeEvent 0x7FFFBF9 = .ok (.txStart 0x7F 65535) := by decide

theorem test_decode_tx_payload : decodeEvent (0x02 * 8 + 0b010) = .ok (.txPayload 0x02) := by decide

theorem test_decode_rx_byte : decodeEvent (0xAA * 8 + 0b011) = .ok (.rxByte 0xAA) := by decide

theorem test_decode_rx_end : decodeEvent 0b100 = .ok .rxEnd := by decide

theorem test_decode_rst : decodeEvent 0b111 = .ok .rst := by decide

theorem test_decode_ignored_bits : decodeEvent (0x7FF * 2048 + 0x553) = .ok (.rxByte 0xAA) := by decide

/-- V-RS-4. -/
theorem test_decode_reserved :
    [0x0, 0x5, 0x6, 0x7FD].map decodeEvent
      = [.error (.reservedEventCode 0), .error (.reservedEventCode 5), .error (.reservedEventCode 6),
         .error (.reservedEventCode 5)] := by decide

theorem test_decode_V_EN_1 :
    decodeFrame [0xAA, 0, 0, 0, 0, 0x00, 0, 0, 0xAA, 0x50]
      = .ok (.refreshNodesInfo (.recv (fieldsOf 0xAA [] 0xAA 0x50))) := by decide

theorem test_decode_V_EN_2 :
    decodeFrame [0xAA, 0, 0, 0, 0, 0x01, 0, 0, 0xAB, 0x53]
      = .ok (.setDateTime (.recv (fieldsOf 0xAA [] 0xAB 0x53))) := by decide

theorem test_decode_V_EN_3 :
    decodeFrame [0xAA, 0, 0, 0, 0, 0x02, 4, 0, 1, 0, 2, 0, 0xB3, 0x26]
      = .ok (.getNodesInfo (.recv (fieldsOf 0xAA [1, 0, 2, 0] 0xB3 0x26))) := by decide

theorem test_decode_V_EN_4 :
    decodeFrame [0xAA, 0, 0, 0, 0, 0x03, 4, 0, 1, 0, 2, 0, 0xB4, 0x2D]
      = .ok (.getNodesState (.recv (fieldsOf 0xAA [1, 0, 2, 0] 0xB4 0x2D))) := by decide

theorem test_decode_V_EN_5 :
    decodeFrame [0xAA, 0, 0, 0, 0, 0x04, 0, 0, 0xAE, 0x5C]
      = .ok (.getGatewayState (.recv (fieldsOf 0xAA [] 0xAE 0x5C))) := by decide

theorem test_decode_V_EN_6 :
    decodeFrame [0xAA, 0, 0, 0, 0, 0x05, 2, 0, 2, 1, 0xB4, 0xCA]
      = .ok (.removeNodes (.recv (fieldsOf 0xAA [2, 1] 0xB4 0xCA))) := by decide

theorem test_decode_V_EN_7 :
    decodeFrame [0xAA, 0, 0, 0, 0, 0x80, 0, 0, 0x2A, 0xD0]
      = .ok (.callGatewayFromNode (.recv (fieldsOf 0xAA [] 0x2A 0xD0))) := by decide

theorem test_decode_V_EN_8 :
    decodeFrame [0xAA, 0, 0, 0, 0, 0x81, 6, 0, 1, 0, 0x64, 2, 0, 0x32, 0xCA, 0xD3]
      = .ok (.reportNodesBatteryLevel (.recv (fieldsOf 0xAA [1, 0, 0x64, 2, 0, 0x32] 0xCA 0xD3))) := by decide

/-- V-RX-16, V-RX-15: another opcode, and an address that is not zero. -/
theorem test_decode_V_RX_16 :
    decodeFrame [0xAA, 0, 0, 0, 0, 0x7F, 1, 0, 9, 0x33, 0x02]
      = .ok (.opOther 0x7F (.recv (fieldsOf 0xAA [9] 0x33 0x02))) := by decide

theorem test_decode_V_RX_15 :
    decodeFrame [0xAA, 1, 2, 3, 4, 2, 2, 0, 0x34, 0x12, 0xFE, 0x76]
      = .ok (.getNodesInfo (.recv { fieldsOf 0xAA [0x34, 0x12] 0xFE 0x76 with address := ⟨1, 2, 3, 4⟩ })) := by
  decide

/-- V-RX-4, V-RX-8, V-RX-9: no frame of the format. -/
theorem test_decode_refuses_chunks :
    [decodeFrame [0x55, 0, 0, 0, 0, 0x81, 6, 0, 1],
     decodeFrame [0xAA, 0, 0, 0, 0, 4, 1, 0, 0xAF, 0x5E],
     decodeFrame [0xAA, 0, 0, 0, 0, 4, 0, 0, 0xAE, 0x5C, 0]]
      = [.error .chunkTooShort, .error .chunkLengthDisagrees, .error .chunkLengthDisagrees] := by decide

/-- The encoder against the words the spec prints beside its events (95_test_vectors.md, part 5). -/
theorem test_encode_words :
    [encodeInstr (.txStart 0x05 2), encodeInstr (.txPayload 0x01), encodeInstr (.rxByte 0xB4), encodeInstr .rxEnd,
     encodeInstr .rst]
      = [.word 0x1029, .word 0xA, .word 0x5A3, .word 0x4, .word 0x7] := by decide

/-- R71: the header word of V-EN-6. -/
theorem test_header_word :
    headerWord [0xAA, 0, 0, 0, 0, 5, 2, 0, 2, 1, 0xB4, 0xCA] = 0x00020500000000AA := by decide

/-- R75: the table's own match values, with the operand bits zero, select their rows. -/
theorem test_table_words :
    [decodeTableWord 64 0x0000010000000000, decodeTableWord 64 0x0000810000000000,
     decodeTableWord 64 0x0000060000000000, decodeTableWord 48 0x4, decodeTableWord 8 0x7,
     decodeTableWord 48 0x5]
      = [some (.setDateTime (.recv (fieldsOf 0 [] 0 0))),
         some (.reportNodesBatteryLevel (.recv (fieldsOf 0 [] 0 0))),
         some (.opOther 0x06 (.recv (fieldsOf 0 [] 0 0))), some .rxEnd, some .rst,
         some (.refreshNodesInfo (.recv (fieldsOf 5 [] 0 0)))] := by decide

/-- The placed word is what the next step runs. -/
theorem test_fetch_word :
    (nextOf (step (State.reset.withFetchWord 48 0x553))).map (fun t => (t.rx.hdr, t.rx.pos, t.inputs))
      = some (0xAA, 1, []) := by decide

/-- R8: with no input presented a step from reset leaves the reset state. -/
theorem test_step_idle : nextOf (step State.reset) = some State.reset := by decide

/-- V-RS-4: a reserved word is taken and changes nothing. -/
theorem test_step_reserved :
    nextOf (step { State.reset with inputs := [.word 0x7FD] }) = some State.reset := by decide

/-! ### The checksum (95_test_vectors.md, part 2) -/

theorem test_V_CS_4 : compute [1, 2, 3] = ⟨0x06, 0x0A⟩ := by decide
theorem test_V_CS_5 : compute [0xFF, 0x01] = ⟨0x00, 0xFF⟩ := by decide
theorem test_V_CS_6 : compute [0x80, 0x80, 0x80] = ⟨0x80, 0x00⟩ := by decide
theorem test_V_CS_10c : compute [1, 2, 3, 0, 0] = ⟨0x06, 0x16⟩ := by decide
theorem test_V_CS_13 :
    compute ([0x00] ++ List.replicate 15 0x55 ++ [0x10, 0x07]) = ⟨0x12, 0xF5⟩
      ∧ compute ([0x10] ++ List.replicate 15 0x55 ++ [0x00, 0x07]) = ⟨0x12, 0xF5⟩ := by decide

/-- V-CS-20, its fourth step. -/
theorem test_V_CS_20 : csAbsorb 0xFF ⟨0x06, 0x0A⟩ = ⟨0x05, 0x0F⟩ := by decide

/-- V-VF-1, 2, 3, 4, 7, 8, 9, 11. -/
theorem test_V_VF :
    [verify [], verify [5], verify [0, 0], verify [1, 1], verify [1, 2, 3, 6, 0xA], verify [1, 2, 3, 6, 0xB],
     verify [1, 2, 3, 7, 0xA], verify [0x55, 0, 0, 0, 0, 4, 0, 0, 0x59, 0xB4]]
      = [false, false, true, false, true, false, false, true] := by decide

/-! ### The functions, with the illustrative marker 0xAA (95_test_vectors.md, parts 3 and 4) -/

theorem test_V_EN_8 :
    encodeFrame 0xAA 0x81 [1, 0, 0x64, 2, 0, 0x32]
      = .ok [0xAA, 0, 0, 0, 0, 0x81, 6, 0, 1, 0, 0x64, 2, 0, 0x32, 0xCA, 0xD3] := by decide

theorem test_V_EN_15 :
    encodeFrame 0xAA 0x03 [0xAA, 0xAA] = .ok [0xAA, 0, 0, 0, 0, 3, 2, 0, 0xAA, 0xAA, 0x03, 0xB9] := by decide

theorem test_V_EN_16 : encodeFrame 0x00 0xFF [0xFF] = .ok [0, 0, 0, 0, 0, 0xFF, 1, 0, 0xFF, 0xFF, 0xFE] := by decide

/-- V-RX-3b, 4, 5, 6, 7, 8, 9, 11. -/
theorem test_V_RX_status :
    [receiveCode 0xAA [0, 0, 0, 0, 0], receiveCode 0xAA [0x55, 0, 0, 0, 0, 0x81, 6, 0, 1],
     receiveCode 0xAA [0xAA, 0, 0, 0, 0, 4, 0, 0, 0xAE, 0x5C], receiveCode 0xAA [0x55, 0, 0, 0, 0, 4, 0, 0, 0xAE, 0x5C],
     receiveCode 0xAA [0x55, 0, 0, 0, 0, 4, 0, 0, 0x59, 0xB4], receiveCode 0xAA [0xAA, 0, 0, 0, 0, 4, 1, 0, 0xAF, 0x5E],
     receiveCode 0xAA [0xAA, 0, 0, 0, 0, 4, 0, 0, 0xAE, 0x5C, 0],
     receiveCode 0xAA [0xAA, 0, 0, 0, 0, 0x81, 6, 0, 1, 0, 0x64, 2, 0, 0x32, 0xCB, 0xD3]]
      = [.frameTooShort, .frameTooShort, .ok, .badHeader, .badHeader, .lengthMismatch, .lengthMismatch,
         .checksumMismatch] := by decide

/-! ### The units, with the illustrative marker 0xAA -/

/-- V-TX-1, its first step. -/
theorem test_V_TX_1 :
    TxUnit.start 0xAA 0x05 2 .reset
      = { busy := true, rem := 2, cse := ⟨0xB1, 0x63⟩, status := .ok, out := [0xAA, 0, 0, 0, 0, 5, 2, 0] } := by decide

/-- V-TX-1, its last two steps. -/
theorem test_V_TX_1_payload :
    ((txData 2).payload 0x02) = { txData 1 with cse := ⟨0xB3, 0x16⟩, out := [0x02] }
      ∧ (((txData 2).payload 0x02).payload 0x01) = .idleWith [0x02, 0x01, 0xB4, 0xCA] := by decide

/-- V-TX-2. -/
theorem test_V_TX_2 :
    TxUnit.start 0xAA 0x04 0 .reset = .idleWith [0xAA, 0, 0, 0, 0, 4, 0, 0, 0xAE, 0x5C] := by decide

/-- V-TX-4. -/
theorem test_V_TX_4 :
    TxUnit.start 0xAA 0x00 65536 .reset = { TxUnit.reset with status := .payloadTooLong }
      ∧ (TxUnit.start 0xAA 0x7F 65535 .reset).rem = 65535 := by decide

/-- V-RX-8b: the trailer bytes land in `PBUF`. -/
theorem test_V_RX_8b :
    let r := RxUnit.reset.chunk 0xAA [0xAA, 0, 0, 0, 0, 3, 4, 0, 2, 1, 0xB4, 0xC8]
    (r.dstat, r.csok, r.pbuf) = (.lengthMismatch, true, [(0, 2), (1, 1), (2, 0xB4), (3, 0xC8)]) := by decide

/-- V-RX-8c. -/
theorem test_V_RX_8c :
    let r := RxUnit.reset.chunk 0xAA [0xAA, 0, 0, 0, 0, 3, 1, 0, 2, 1, 0xB1, 0xBC]
    (r.dstat, r.csok, r.pbuf) = (.lengthMismatch, true, [(0, 2)]) := by decide

/-- V-RS-1: after ten bytes. -/
theorem test_V_RS_1_bytes :
    let r := [0xAA, 0, 0, 0, 0, 5, 2, 0, 2, 1].foldl (fun (r : RxUnit) b => r.byte b) .reset
    (r.pos, r.cse, r.d0, r.d1, r.valid) = (10, ⟨0xB1, 0x63⟩, 2, 1, false) := by decide

/-- V-RS-1: after the end. -/
theorem test_V_RS_1_end :
    let e := RxUnit.reset.chunk 0xAA [0xAA, 0, 0, 0, 0, 5, 2, 0, 2, 1, 0xB4, 0xCA]
    ((e.pos, e.cse, e.d0, e.d1), e.valid, e.status, e.pbuf)
      = ((0, ⟨0, 0⟩, 0xB4, 0xCA), true, .ok, [(0, 2), (1, 1)]) := by decide

/-- P2: stale bytes above `RX_LEN` stay. -/
theorem test_P2_stale :
    ((RxUnit.reset.chunk 0xAA [0xAA, 0, 0, 0, 0, 0x81, 6, 0, 1, 0, 0x64, 2, 0, 0x32, 0xCA, 0xD2]).chunk 0xAA
        [0xAA, 0, 0, 0, 0, 3, 2, 0, 2, 1, 0xB2, 0xC0]).pbuf
      = [(0, 2), (1, 1), (2, 0x64), (3, 2), (4, 0), (5, 0x32)] := by decide

/-- R30: the counter saturates. -/
theorem test_pos_saturates : nextPos 131070 = 131071 ∧ nextPos 131071 = 131071 := by decide

/-! ### The instructions, one step each -/

theorem test_exec_refreshNodesInfo :
    viewAfter (.refreshNodesInfo (.recv (fieldsOf 0xAA [] 0xAA 0x50))) = some (⟨0, 0, 0, 0⟩, 0x00, 0, [])
      ∧ sentMiddle (.refreshNodesInfo (.send [])) = some [0, 0, 0, 0, 0x00, 0, 0] := by decide

theorem test_exec_setDateTime :
    viewAfter (.setDateTime (.recv (fieldsOf 0xAA [2] 0 0))) = some (⟨0, 0, 0, 0⟩, 0x01, 1, [(0, 2)])
      ∧ sentMiddle (.setDateTime (.send [])) = some [0, 0, 0, 0, 0x01, 0, 0] := by decide

theorem test_exec_getNodesInfo :
    viewAfter (.getNodesInfo (.recv { fieldsOf 0xAA [0x34, 0x12] 0xFE 0x76 with address := ⟨1, 2, 3, 4⟩ }))
      = some (⟨1, 2, 3, 4⟩, 0x02, 2, [(0, 0x34), (1, 0x12)])
      ∧ sentMiddle (requestGetNodesInfo [1, 2]) = some [0, 0, 0, 0, 0x02, 4, 0, 1, 0, 2, 0] := by decide

theorem test_exec_getNodesState :
    viewAfter (.getNodesState (.recv (fieldsOf 0xAA [2, 1] 0xB2 0xC0)))
      = some (⟨0, 0, 0, 0⟩, 0x03, 2, [(0, 2), (1, 1)])
      ∧ sentMiddle (requestGetNodesState [1, 2]) = some [0, 0, 0, 0, 0x03, 4, 0, 1, 0, 2, 0] := by decide

theorem test_exec_getGatewayState :
    viewAfter (.getGatewayState (.recv (fieldsOf 0xAA [] 0xAE 0x5C))) = some (⟨0, 0, 0, 0⟩, 0x04, 0, [])
      ∧ sentMiddle requestGetGatewayState = some [0, 0, 0, 0, 0x04, 0, 0] := by decide

theorem test_exec_removeNodes :
    viewAfter (.removeNodes (.recv (fieldsOf 0xAA [0] 0 0))) = some (⟨0, 0, 0, 0⟩, 0x05, 1, [(0, 0)])
      ∧ sentMiddle (requestRemoveNodes [0x0102]) = some [0, 0, 0, 0, 0x05, 2, 0, 2, 1] := by decide

theorem test_exec_callGatewayFromNode :
    viewAfter (.callGatewayFromNode (.recv (fieldsOf 0xAA [] 0x2A 0xD0))) = some (⟨0, 0, 0, 0⟩, 0x80, 0, [])
      ∧ sentMiddle (.callGatewayFromNode (.send [])) = some [0, 0, 0, 0, 0x80, 0, 0] := by decide

theorem test_exec_reportNodesBatteryLevel :
    viewAfter (.reportNodesBatteryLevel (.recv (fieldsOf 0xAA [1, 0, 0x64] 0 0)))
      = some (⟨0, 0, 0, 0⟩, 0x81, 3, [(0, 1), (1, 0), (2, 0x64)])
      ∧ sentMiddle (.reportNodesBatteryLevel (.send [9])) = some [0, 0, 0, 0, 0x81, 1, 0, 9] := by decide

theorem test_exec_opOther :
    viewAfter (.opOther 0x7F (.recv (fieldsOf 0xAA [9] 0x33 0x02))) = some (⟨0, 0, 0, 0⟩, 0x7F, 1, [(0, 9)])
      ∧ sentMiddle (.opOther 0xFF (.send [0xFF])) = some [0, 0, 0, 0, 0xFF, 1, 0, 0xFF] := by decide

/-- V-TX-3, V-TX-5. -/
theorem test_exec_txStart :
    (nextOf (exec (.txStart 0x03 4) .reset)).map (fun t => (t.tx.busy, t.tx.rem, t.tx.out.drop 1))
      = some (true, 4, [0, 0, 0, 0, 3, 4, 0])
      ∧ nextOf (exec (.txStart 0x04 0) (sending 2)) = none := by decide

/-- V-TX-1, V-TX-5. -/
theorem test_exec_txPayload :
    (nextOf (exec (.txPayload 0x02) (sending 2))).map (fun t => (t.tx.cse, t.tx.rem, t.tx.out))
      = some (⟨0xB3, 0x16⟩, 1, [0x02])
      ∧ nextOf (exec (.txPayload 0x00) .reset) = none := by decide

/-- R148's example; a byte past the payload is not stored. -/
theorem test_exec_rxByte :
    (nextOf (exec (.rxByte 0xAA) .reset)).map (fun t => (t.rx.pos, t.rx.hdr, t.rx.d1, t.rx.cse, t.rx.valid))
      = some (1, 0xAA, 0xAA, ⟨0, 0⟩, false)
      ∧ (nextOf (exec (.rxByte 0xCA) (receiving 10 2 0))).map (fun t => t.rx.pbuf) = some [] := by decide

/-- V-RS-3. -/
theorem test_exec_rxEnd :
    (nextOf (exec .rxEnd .reset)).map (fun t => (t.rx.dstat, t.rx.csok, t.rx.valid, t.rx.status))
      = some (.frameTooShort, false, true, .frameTooShort) := by decide

/-- P4: `RST` in the middle of a send and of a receive. -/
theorem test_exec_rst :
    (nextOf (exec .rst { sending 3 with rx := (receiving 5 0 0).rx })).map
        (fun t => (t.tx.busy, t.tx.rem, t.tx.cse, t.rx.pos, t.rx.valid))
      = some (false, 0, ⟨0, 0⟩, 0, false) := by decide

/-- R33, R145: a host read before a result, and after an error. -/
theorem test_host_reads :
    State.reset.readRxStatus = .error .resultNotValid
      ∧ (nextOf (exec .rxEnd .reset)).map (fun t => (t.readRxStatus, t.readRxOpcode))
        = some (.ok .frameTooShort, .error .frameNotOk) := by decide

/-! ### Witnesses: for each obligation with hypotheses, states and operands that meet them -/

/-- The shortest good frame, for the block's own marker. -/
def shortFrame : List Byte :=
  [Config.sof, 0, 0, 0, 0, 4, 0, 0, Config.sof + 4, 8 * Config.sof + 12]

theorem shortFrame_encoded : encodeFrame Config.sof 4 [] = .ok shortFrame := by
  rw [encodeFrame_ok Config.sof 4 [] (by simp), List.append_nil, compute_frameHeader, shortFrame]
  generalize Config.sof = x
  simp only [frameHeader, csResult, List.length_nil, show lo8 0 = 0 from rfl, show hi8 0 = 0 from rfl]
  simp

/-- A view that a chunk of the shortest good frame delivers. -/
theorem shortFrame_received : ∃ f, receive Config.sof shortFrame = .ok f := by
  unfold shortFrame
  generalize Config.sof = x
  have hv : verify ([x, 0, 0, 0, 0, 4, 0, 0] ++ [x + 4, 8 * x + 12]) = true := by
    rw [verify_append, beq_iff_eq]
    exact (compute_frameHeader x 4 0).trans (by
      simp only [show lo8 0 = 0 from rfl, show hi8 0 = 0 from rfl]; simp)
  simp only [List.cons_append, List.nil_append] at hv
  obtain ⟨f, hf⟩ : ∃ f, decodeChunk x [x, 0, 0, 0, 0, 4, 0, 0, x + 4, 8 * x + 12] = .ok f :=
    ⟨{ address := ⟨0, 0, 0, 0⟩, opcode := 4, payloadLength := 0, payload := []
       checksumPair := (x + 4, 8 * x + 12) }, by simp [decodeChunk, le16, slice]⟩
  exact ⟨f, by unfold receive; rw [hf]; exact if_pos hv⟩

/-- A list with events of both units between each other. -/
def mixed : List Instr := [.rxByte 0xAA, .txStart 4 1, .rxByte 0, .txPayload 9, .rxEnd]

theorem mixed_unitEvents : Claims.UnitEvents mixed := by unfold Claims.UnitEvents; decide

theorem mixed_runs : ∃ t, runInstrs mixed State.reset = .next t := ⟨_, rfl⟩

/-- Just short enough, and just too long. -/
theorem payload_bounds :
    (List.replicate 65535 (0 : Byte)).length ≤ 65535 ∧ 65536 ≤ (List.replicate 65536 (0 : Byte)).length
      ∧ (List.replicate 65536 (0 : Byte)).length < 2 ^ 32 := by
  rw [List.length_replicate, List.length_replicate]; omega

theorem reset_idle : State.reset.tx.busy = false ∧ State.reset.rx.idle := ⟨rfl, rfl, rfl⟩

theorem witness_RstAbandonsWorkInProgress :
    (List.replicate 65535 (0 : Byte)).length ≤ 65535 ∧ (sending 3).freeTick = State.reset.freeTick :=
  ⟨payload_bounds.1, rfl⟩

theorem witness_TxStartStep :
    State.reset.tx.busy = false ∧ (1 ≤ (1#32).toNat ∧ (1#32).toNat ≤ 65535)
      ∧ (1 ≤ (65535#32).toNat ∧ (65535#32).toNat ≤ 65535) ∧ 65536 ≤ (65536#32).toNat := by
  simp [State.reset, TxUnit.reset]

theorem witness_TxPayloadStep :
    ((sending 1).tx.busy = true ∧ (sending 1).tx.rem = 1)
      ∧ ((sending 2).tx.busy = true ∧ 2 ≤ (sending 2).tx.rem.toNat) := by decide

theorem witness_TxProtocolBreachIsRefused :
    (sending 1).tx.busy = true ∧ State.reset.tx.busy = false := by decide

theorem witness_TxUnitTracksFrame :
    State.reset.tx.busy = false ∧ 1 ≤ 1 ∧ 65535 ≤ 65535 ∧ ([] : List Byte).length < 1
      ∧ ([9] : List Byte).length = 1 := by decide

theorem witness_TxUnitAgreesWithEncode :
    State.reset.tx.busy = false ∧ ([9] : List Byte).length ≤ 65535
      ∧ Claims.UnitEvents mixed ∧ mixed.filter isTx = sendEvents 4 [9]
      ∧ 65536 ≤ (List.replicate 65536 (0 : Byte)).length ∧ (List.replicate 65536 (0 : Byte)).length < 2 ^ 32 :=
  ⟨rfl, by decide, mixed_unitEvents, by decide, payload_bounds.2.1, payload_bounds.2.2⟩

/-- The offsets at which the clauses of `ReceivedByteStep` meet: 7 stores nothing in `PBUF`, 8 stores at 0,
and the first trailer byte is not stored. -/
theorem witness_ReceivedByteStep :
    (receiving 7 1 0).rx.storeAddress 7 = none ∧ (receiving 8 1 0).rx.storeAddress 8 = some 0
      ∧ (receiving 9 1 0).rx.storeAddress 9 = none := by decide

/-- A chunk about to end with each of the four decode statuses, at the boundary of each test. -/
theorem witness_ChunkEndStep :
    let at10 (h lo : Byte) : State :=
      { State.reset with rx := { RxUnit.reset with pos := 10, hdr := h, lenLo := lo } }
    (receiving 9 0 0).rx.pos.toNat < 10
      ∧ ¬ (at10 0 0).rx.pos.toNat < 10 ∧ (at10 (Config.sof + 1) 0).rx.hdr ≠ Config.sof
      ∧ (at10 Config.sof 1).rx.hdr = Config.sof ∧ (at10 Config.sof 1).rx.pos.toNat ≠ 10 + 1
      ∧ (at10 Config.sof 0).rx.pos.toNat = 10 + 0 := by
  refine ⟨by decide, by decide, ?_, rfl, by decide, by decide⟩
  show Config.sof + 1 ≠ Config.sof
  generalize Config.sof = x
  bv_omega

theorem witness_RxUnitHoldsChunkSoFar : (Instr.rst = .rst ∨ Instr.rst = .rxEnd)
    ∧ (Instr.rxEnd = .rst ∨ Instr.rxEnd = .rxEnd) := by decide

theorem witness_RxUnitAgreesWithReceive :
    Claims.UnitEvents mixed ∧ mixed.filter isRx = recvEvents [0xAA, 0]
      ∧ ∃ t, runInstrs (.rst :: mixed) State.reset = .next t :=
  ⟨mixed_unitEvents, by decide, _, rfl⟩

theorem witness_EmptyAndShortChunks :
    State.reset.rx.idle ∧ ∀ b ∈ [[0xAA], List.replicate 9 (0 : Byte)], 1 ≤ b.length ∧ b.length ≤ 9 :=
  ⟨reset_idle.2, by decide⟩

theorem witness_OverlongChunks :
    State.reset.rx.idle ∧ 65545 < (List.replicate 65546 (0 : Byte)).length := ⟨reset_idle.2, by
  rw [List.length_replicate]; omega⟩

theorem witness_VerifyComparesTrailer :
    ([5] : List Byte).length < 2 ∧ 2 ≤ ([0, 0] : List Byte).length ∧ ∀ x ∈ ([0, 0] : List Byte), x = 0 := by decide

theorem witness_SingleByteChangeIsDetected :
    verify [1, 1, 1] = true ∧ 0 < ([1, 1, 1] : List Byte).length - 2 ∧ (2 : Byte) ≠ ([1, 1, 1] : List Byte).getD 0 0
      ∧ 7 < 8 ∧ verify ([1] ++ [1, 1]) = true ∧ ((1 : Byte), (2 : Byte)) ≠ (1, 1) := by decide

/-- V-CS-12 for adjacent bytes, V-CS-13 for bytes sixteen places apart. -/
theorem witness_SwapDetectionCondition :
    let x : List Byte := [0x10, 0x20, 0x30, 0x40]
    let y : List Byte := [0x00] ++ List.replicate 15 0x55 ++ [0x10, 0x07]
    (1 < 2 ∧ 2 < x.length ∧ x.getD 1 0 ≠ x.getD 2 0)
      ∧ (0 < 16 ∧ 16 < y.length ∧ 16 = 0 + 16 ∧ y.getD 0 0 = 0x00 ∧ y.getD 16 0 = 0x10) :=
  ⟨by decide, by decide⟩

theorem witness_EncodeFrameProperties :
    encodeFrame Config.sof 4 [] = .ok shortFrame ∧ (List.replicate 65535 (0 : Byte)).length ≤ 65535 :=
  ⟨shortFrame_encoded, payload_bounds.1⟩

theorem witness_EncodeLaysOutFrame :
    65536 ≤ (List.replicate 65536 (0 : Byte)).length ∧ (List.replicate 65535 (0 : Byte)).length ≤ 65535 :=
  ⟨payload_bounds.2.1, payload_bounds.1⟩

/-- One chunk for each clause of `DecodeTestsInOrder`, at the boundary, with the marker 0xAA. -/
theorem witness_DecodeTestsInOrder :
    ([0xAA, 0, 0, 0, 0, 4, 0, 0, 0xAE] : List Byte).length < 10
      ∧ 10 ≤ ([0x55, 0, 0, 0, 0, 4, 0, 0, 0xAE, 0x5C] : List Byte).length
      ∧ ([0x55, 0, 0, 0, 0, 4, 0, 0, 0xAE, 0x5C] : List Byte).getD 0 0 ≠ 0xAA
      ∧ ([0xAA, 0, 0, 0, 0, 4, 1, 0, 0xAF, 0x5E] : List Byte).getD 0 0 = 0xAA
      ∧ ([0xAA, 0, 0, 0, 0, 4, 1, 0, 0xAF, 0x5E] : List Byte).length ≠ 10 + (1 + 256 * 0)
      ∧ ([0xAA, 0, 0, 0, 0, 4, 0, 0, 0xAE, 0x5C] : List Byte).length = 10 + (0 + 256 * 0) := by decide

/-- V-RX-5: a chunk that is received, and so meets both sides of `ReceiveOutcomePriority`. -/
theorem witness_ReceiveOutcomePriority : ∃ f, receive Config.sof shortFrame = .ok f := shortFrame_received

theorem witness_RoundTripLaw :
    (List.replicate 65535 (0 : Byte)).length ≤ 65535 ∧ State.reset.tx.busy = false ∧ State.reset.rx.idle :=
  ⟨payload_bounds.1, reset_idle.1, reset_idle.2⟩

theorem witness_FrameRowsReceive :
    State.reset.rx.idle ∧ (fieldsOf 0xAA [9] 0x33 0x02).payload.length
      = (fieldsOf 0xAA [9] 0x33 0x02).payloadLength.toNat := ⟨reset_idle.2, by decide⟩

theorem witness_FrameRowsSend :
    State.reset.tx.busy = false ∧ (List.replicate 65535 (0 : Byte)).length ≤ 65535 := ⟨rfl, payload_bounds.1⟩

theorem witness_FrameRowsSendTurnedAway :
    (sending 1).tx.busy = true ∧ State.reset.tx.busy = false
      ∧ 65536 ≤ (List.replicate 65536 (0 : Byte)).length := ⟨rfl, rfl, payload_bounds.2.1⟩

theorem witness_FrameRowsAreTheirEvents : (List.replicate 65535 (0 : Byte)).length ≤ 65535 := payload_bounds.1

theorem witness_RequestBuildersSend :
    State.reset.tx.busy = false ∧ 0 < ([1, 2] : List (BitVec 16)).length
      ∧ (List.replicate 32767 (1 : BitVec 16)).length ≤ 32767
      ∧ 32767 < (List.replicate 32768 (1 : BitVec 16)).length :=
  ⟨rfl, by decide, by rw [List.length_replicate], by rw [List.length_replicate]; omega⟩

theorem witness_UnitsDoNotInterfere :
    Claims.UnitEvents mixed ∧ (∃ t, runInstrs mixed State.reset = .next t)
      ∧ (∃ u, runInstrs (mixed.filter isTx) State.reset = .next u)
      ∧ isTx (.txStart 4 1) = true ∧ isRx (.rxByte 0xAA) = true :=
  ⟨mixed_unitEvents, mixed_runs, ⟨_, rfl⟩, rfl, rfl⟩

/-- `step` answers a next state from a state that meets the invariant, with an input presented. -/
theorem witness_StepKeepsInvariant :
    ∃ s t : State, s.inv ∧ s.inputs ≠ [] ∧ step s = .next t :=
  ⟨{ State.reset with inputs := [.word 0x553] }, _,
    ⟨TxUnit.inv_idle _ rfl rfl rfl, fun _ => rfl, fun _ => rfl, Memory.wf_nil⟩, by simp, rfl⟩

/-- Every hypothesis of the flag rules is met: each event completes somewhere. -/
theorem witness_flag_rules :
    (∃ t, exec .rxEnd .reset = .next t) ∧ (∃ t, exec (.rxByte 0) .reset = .next t)
      ∧ (∃ t, exec .rst .reset = .next t) ∧ (∃ t, exec (.txStart 4 65535) .reset = .next t)
      ∧ (∃ t, exec (.txStart 4 65536) .reset = .next t) ∧ (∃ t, exec (.txPayload 0) (sending 1) = .next t)
      ∧ (∃ t, exec (.txPayload 0) (sending 2) = .next t)
      ∧ (∃ t, exec (frameInstr 4 (.send [])) .reset = .next t)
      ∧ (∃ t, exec (frameInstr 4 (.recv (fieldsOf 0 [] 0 0))) .reset = .next t) :=
  ⟨⟨_, rfl⟩, ⟨_, rfl⟩, ⟨_, rfl⟩, ⟨_, rfl⟩, ⟨_, rfl⟩, ⟨_, rfl⟩, ⟨_, rfl⟩, ⟨_, rfl⟩, ⟨_, rfl⟩⟩

theorem witness_ValidFlagRule :
    (∃ t, exec .rxEnd .reset = .next t) ∧ (∃ t, exec (.rxByte 0) .reset = .next t)
      ∧ (∃ t, exec .rst .reset = .next t) ∧ isTx (.txStart 4 0) = true ∧ (∃ t, exec (.txStart 4 0) .reset = .next t)
      ∧ (∃ t, exec (frameInstr 4 (.recv (fieldsOf 0 [] 0 0))) .reset = .next t) ∧ State.reset.rx.valid = false :=
  ⟨⟨_, rfl⟩, ⟨_, rfl⟩, ⟨_, rfl⟩, rfl, ⟨_, rfl⟩, ⟨_, rfl⟩, rfl⟩

theorem witness_BusyFlagRule :
    isRx (.rxByte 0) = true ∧ (∃ t, exec (.txStart 4 1) .reset = .next t)
      ∧ (∃ t, exec (.txPayload 0) (sending 1) = .next t) ∧ (∃ t, exec (frameInstr 4 (.send [])) .reset = .next t) :=
  ⟨rfl, ⟨_, rfl⟩, ⟨_, rfl⟩, ⟨_, rfl⟩⟩

theorem witness_ResultFlagsHaveOneWriter :
    isRx .rxEnd = true ∧ isTx (.txPayload 0) = true ∧ (∃ t, exec .rxEnd .reset = .next t)
      ∧ (∃ t, exec (.txPayload 0) (sending 1) = .next t) ∧ (∃ t, exec .rst .reset = .next t) :=
  ⟨rfl, rfl, ⟨_, rfl⟩, ⟨_, rfl⟩, ⟨_, rfl⟩⟩

theorem witness_OutputOnlyGrows :
    isTx (.rxByte 0) = false ∧ (∃ t, exec (.rxByte 0) .reset = .next t) ∧ ∃ t, exec (.txStart 4 0) .reset = .next t :=
  ⟨rfl, ⟨_, rfl⟩, ⟨_, rfl⟩⟩

/-- Also a run that ends in `TX_DATA`. -/
theorem witness_OutputIsWholeFrames :
    State.reset.tx.busy = false ∧ Claims.UnitEvents mixed ∧ (∃ t, runInstrs mixed State.reset = .next t)
      ∧ Claims.UnitEvents (mixed.take 2) ∧ ∃ t, runInstrs (mixed.take 2) State.reset = .next t ∧ t.tx.busy = true :=
  ⟨rfl, mixed_unitEvents, mixed_runs, fun i hi => mixed_unitEvents i (List.mem_of_mem_take hi), _, rfl, rfl⟩

theorem witness_EventStepOutputs :
    (∃ t, exec (.txStart 4 0) .reset = .next t) ∧ (∃ t, exec (.txStart 4 65536) .reset = .next t)
      ∧ (∃ t, exec (.txPayload 0) (sending 1) = .next t) ∧ (∃ t, exec (.rxByte 0) .reset = .next t)
      ∧ (∃ t, exec .rxEnd .reset = .next t) ∧ ∃ t, exec .rst .reset = .next t :=
  ⟨⟨_, rfl⟩, ⟨_, rfl⟩, ⟨_, rfl⟩, ⟨_, rfl⟩, ⟨_, rfl⟩, ⟨_, rfl⟩⟩

/-- One instruction for each clause: a byte that is stored, the end of a chunk, a TX event, a frame between
chunks with a byte to store, and `RST`. -/
theorem witness_PayloadBufferIsNeverLoaded :
    (∃ t, exec (.rxByte 0) (receiving 8 1 0) = .next t) ∧ (receiving 8 1 0).rx.storeAddress 8 = some 0
      ∧ (∃ t, exec .rxEnd .reset = .next t) ∧ isTx (.txStart 4 0) = true ∧ (∃ t, exec (.txStart 4 0) .reset = .next t)
      ∧ State.reset.rx.idle ∧ (∃ t, exec (frameInstr 4 (.recv (fieldsOf 0 [9] 0 0))) .reset = .next t)
      ∧ (0 < (fieldsOf 0 [9] 0 0).payloadLength.toNat ∧ 0 < (fieldsOf 0 [9] 0 0).payload.length + 2)
      ∧ ∃ t, exec .rst .reset = .next t :=
  ⟨⟨_, rfl⟩, by decide, ⟨_, rfl⟩, rfl, ⟨_, rfl⟩, reset_idle.2, ⟨_, rfl⟩, by decide, ⟨_, rfl⟩⟩

theorem witness_HostReadsOnlyDeliveredFrame :
    State.reset.rx.idle ∧ (∃ f, receive Config.sof shortFrame = .ok f) ∧ receiveCode Config.sof [] ≠ .ok :=
  ⟨reset_idle.2, shortFrame_received, by simp [receiveCode, receive, decodeChunk, DecodeStatus.toRx, rxStatusOf]⟩

theorem witness_DecodeEncodeAgree :
    (Instr.removeNodes (.recv (fieldsOf 0xAA [2, 1] 0xB4 0xCA))).wf = true
      ∧ (∃ i, decodeInput (.chunk [0xAA, 0, 0, 0, 0, 0x00, 0, 0, 0xAA, 0x50]) = .ok i)
      ∧ ∃ i, decodeInput (.request 4 []) = .ok i := ⟨rfl, ⟨_, rfl⟩, ⟨_, rfl⟩⟩

theorem witness_EventWordDecoding :
    ([1, 2, 3, 4, 7, 0, 5, 6, 0x7FFFFFFFFFD] : List (BitVec 43)).map (fun w => w.toNat % 8)
      = [1, 2, 3, 4, 7, 0, 5, 6, 5] := by decide

/-- A frame that matches a row, and one that matches none. -/
theorem witness_OpcodeMapSelectsRow :
    (∃ i, decodeFrame [0xAA, 0, 0, 0, 0, 0x05, 0, 0, 0, 0] = .ok i)
      ∧ (∃ row ∈ opcodeMap, row.matches (headerWord [0xAA, 0, 0, 0, 0, 0x05, 0, 0, 0, 0]) = true)
      ∧ ∀ row ∈ opcodeMap, row.matches (headerWord [0xAA, 0, 0, 0, 0, 0x06, 0, 0, 0, 0]) = false :=
  ⟨⟨_, rfl⟩, by decide, by decide⟩

/-- One input for each clause of `StepRunsDecodedInput`. -/
theorem witness_StepRunsDecodedInput :
    decodeInput (.word 0x4) = .ok .rxEnd ∧ decodeInput (.word 0x5) = .error (.reservedEventCode 5)
      ∧ decodeInput (.chunk [0xAA]) = .error .chunkTooShort ∧ State.reset.inputs = [] := by decide

theorem witness_StepsRunPresentedInstructions : ∀ i ∈ mixed, i.wf = true := by decide

end Sys2Proof.Tests
end

section
/-! The rules of a step, one for each way the next input can decode, and the dispatch assembled from them. -/

namespace Sys2Proof.Machine

theorem State.takeInput_of_nil {s : State} (h : s.inputs = []) : s.takeInput = none := by
  simp [State.takeInput, h]

theorem State.takeInput_of_cons {s : State} {inp : Input} {rest : List Input} (h : s.inputs = inp :: rest) :
    s.takeInput = some (inp, { s with inputs := rest }) := by
  simp [State.takeInput, h]

/-- The idle step (log 3). -/
theorem step_of_no_input {s : State} (h : s.inputs = []) : step s = .next s := by
  simp [step, State.takeInput_of_nil h]

/-- A step on an input that stands for an instruction (R8). -/
theorem step_of_decode_ok {s : State} {inp : Input} {rest : List Input} {i : Instr}
    (h : s.inputs = inp :: rest) (hd : decodeInput inp = .ok i) :
    step s = exec i { s with inputs := rest } := by
  simp [step, State.takeInput_of_cons h, hd]

/-- A step on an input that stands for no instruction (R81, log 14). -/
theorem step_of_decode_error {s : State} {inp : Input} {rest : List Input} {e : DecodeError}
    (h : s.inputs = inp :: rest) (hd : decodeInput inp = .error e) :
    step s = takeOther inp { s with inputs := rest } := by
  simp [step, State.takeInput_of_cons h, hd]

/-- A reserved event word is no event (R81). -/
@[simp] theorem takeOther_word (w : BitVec 43) (s : State) : takeOther (.word w) s = .next s := rfl

/-- A chunk that is no frame of the format still reaches the RX unit (R152 to R154). -/
@[simp] theorem takeOther_chunk (b : List Byte) (s : State) :
    takeOther (.chunk b) s = .next { s with rx := s.rx.chunk Config.sof b } := rfl

/-- Settles O45: by whether an input is there, and by what it decodes to. -/
theorem stepRunsDecodedInput : Obligations.StepRunsDecodedInput := by
  intro s inp rest
  refine ⟨?decoded, ?reservedWord, ?otherChunk, step_of_no_input⟩
  case decoded => exact fun h i hd => step_of_decode_ok h hd
  case reservedWord =>
    intro w e h hd
    rw [step_of_decode_error h hd, takeOther_word]
  case otherChunk =>
    intro b e h hd
    rw [step_of_decode_error h hd, takeOther_chunk]

end Sys2Proof.Machine
end

section
/-! Once for every instruction and every step: the unit that is left alone, and the invariant that is kept
(20_memory.md R59, 10_state.md R39, R44). -/

namespace Sys2Proof.Machine

/-- A TX instruction leaves the RX unit (R59). -/
theorem exec_tx_keeps_rx {i : Instr} {s t : State} (hi : isTx i = true) (h : exec i s = .next t) :
    t.rx = s.rx := by
  obtain ⟨tx', hnext, -⟩ | ⟨r, href⟩ := exec_tx hi s.tx
  · cases (hnext s.rx s.inputs s.freeTick).symm.trans h; rfl
  · cases (href s.rx s.inputs s.freeTick).symm.trans h

/-- An RX instruction leaves the TX unit (R59). -/
theorem exec_rx_keeps_tx {i : Instr} {s t : State} (hi : isRx i = true) (h : exec i s = .next t) :
    t.tx = s.tx := by
  obtain ⟨rx', hnext, -⟩ := exec_rx hi s.rx
  cases (hnext s.tx s.inputs s.freeTick).symm.trans h; rfl

theorem TxUnit.inv_clear (tx : TxUnit) : tx.clear.inv := TxUnit.inv_idle _ rfl rfl rfl

theorem TxUnit.inv_reset : TxUnit.reset.inv := TxUnit.inv_idle _ rfl rfl rfl

theorem RxUnit.inv_reset : RxUnit.reset.inv :=
  ⟨fun _ => rfl, fun h => absurd h (by simp [RxUnit.reset]), Memory.wf_nil⟩

/-- Every instruction that completes keeps the invariant. -/
theorem exec_keeps_inv {i : Instr} {s t : State} (hs : s.inv) (h : exec i s = .next t) : t.inv := by
  obtain ⟨htx, hrx⟩ := hs
  obtain hi | hi | rfl := tx_or_rx_or_rst i
  · obtain ⟨tx', hnext, hinv⟩ | ⟨r, href⟩ := exec_tx hi s.tx
    · cases (hnext s.rx s.inputs s.freeTick).symm.trans h
      exact ⟨hinv htx, hrx⟩
    · cases (href s.rx s.inputs s.freeTick).symm.trans h
  · obtain ⟨rx', hnext, hinv⟩ := exec_rx hi s.rx
    cases (hnext s.tx s.inputs s.freeTick).symm.trans h
    exact ⟨htx, hinv hrx⟩
  · cases (exec_rst s).symm.trans h
    exact ⟨TxUnit.inv_clear s.tx, RxUnit.inv_cleared s.freeTick⟩

/-- Everything a step that completes can have done, by its next input. -/
theorem step_cases {s t : State} (h : step s = .next t) :
    (s.inputs = [] ∧ t = s)
    ∨ ∃ inp rest, s.inputs = inp :: rest
      ∧ ((∃ i, decodeInput inp = .ok i ∧ exec i { s with inputs := rest } = .next t)
        ∨ (∃ w, inp = .word w ∧ t = { s with inputs := rest })
        ∨ ∃ b, inp = .chunk b ∧ t = { s with inputs := rest, rx := s.rx.chunk Config.sof b }) := by
  cases hin : s.inputs with
  | nil =>
    rw [step_of_no_input hin] at h
    cases h
    exact .inl ⟨rfl, rfl⟩
  | cons inp rest =>
    refine .inr ⟨inp, rest, rfl, ?_⟩
    cases hd : decodeInput inp with
    | ok i => exact .inl ⟨i, rfl, (step_of_decode_ok hin hd).symm.trans h⟩
    | error e =>
      rw [step_of_decode_error hin hd] at h
      cases inp with
      | word w => cases h; exact .inr (.inl ⟨w, rfl, rfl⟩)
      | chunk b => cases h; exact .inr (.inr ⟨b, rfl, rfl⟩)
      | request op p => cases hd

/-- Settles O32: a step is idle, drops a reserved word, receives a chunk or runs one instruction, and each
keeps the invariant. -/
theorem stepKeepsInvariant : Obligations.StepKeepsInvariant := by
  intro s t hs h
  obtain ⟨-, rfl⟩ | ⟨inp, rest, -, hcase⟩ := step_cases h
  · exact hs
  · have hrest : ({ s with inputs := rest } : State).inv := hs
    obtain ⟨i, -, hexec⟩ | ⟨w, -, rfl⟩ | ⟨b, -, rfl⟩ := hcase
    · exact exec_keeps_inv hrest hexec
    · exact hrest
    · exact ⟨hs.1, RxUnit.inv_chunk Config.sof b s.rx hs.2⟩

/-- Settles O1: the reset state is written out, and each register is read from it. -/
theorem resetStateIsIdle : Obligations.ResetStateIsIdle :=
  ⟨rfl, rfl, rfl, rfl, rfl, rfl, rfl, rfl, rfl⟩

/-- Settles O2: both units start idle, and `PBUF` lists nothing. -/
theorem resetMeetsInvariant : Obligations.ResetMeetsInvariant := ⟨TxUnit.inv_reset, RxUnit.inv_reset⟩

end Sys2Proof.Machine
end

section
/-! The TX unit in the middle of a frame, and who writes `TX_BUSY` and `TX_STATUS` (10_state.md R32, R34,
R44). -/

namespace Sys2Proof.Machine

/-- The header and a proper part of the payload: as many bytes are owed as are missing, and the sums cover
what was emitted (R44). -/
theorem runInstrs_send_partial (op : Byte) (n : Nat) (q : List Byte) (s : State) (hb : s.tx.busy = false)
    (hn : n ≤ 65535) (hq : q.length < n) :
    runInstrs (.txStart op (BitVec.ofNat 32 n) :: q.map .txPayload) s = .next { s with
      tx := { busy := true, rem := BitVec.ofNat 16 (n - q.length)
              cse := compute (frameHeader Config.sof op n ++ q), status := .ok
              out := s.tx.out ++ (frameHeader Config.sof op n ++ q) } } := by
  have hn32 : (BitVec.ofNat 32 n).toNat = n := by
    rw [BitVec.toNat_ofNat]; exact Nat.mod_eq_of_lt (by omega)
  have hn16 : (BitVec.ofNat 16 n).toNat = n := by
    rw [BitVec.toNat_ofNat]; exact Nat.mod_eq_of_lt (by omega)
  have h0 : BitVec.ofNat 32 n ≠ 0 := by
    intro hz; rw [hz] at hn32; simp at hn32; omega
  have hstart : exec (.txStart op (BitVec.ofNat 32 n)) s
      = .next { s with tx := s.tx.start Config.sof op (BitVec.ofNat 32 n) } := if_neg (by simp [hb])
  have hdata := TxUnit.start_data Config.sof op _ s.tx h0 (by omega)
  rw [hn32] at hdata
  rw [runInstrs_cons_next hstart, hdata, runInstrs_txPayloads q _ rfl (by simp only [hn16]; omega),
    TxUnit.payload_some q (frameHeader Config.sof op n) _ (by simp only [hn16]; omega) rfl]
  simp only [hn16, List.append_assoc]

/-- Settles O7: fewer bytes than announced leave the unit inside the frame, all of them end it. -/
theorem txUnitTracksFrame : Obligations.TxUnitTracksFrame := by
  intro s op n q hb h1 hn hq
  obtain hlt | rfl := Nat.lt_or_eq_of_le hq
  case inl =>
    have hrem : (BitVec.ofNat 16 (n - q.length)).toNat = n - q.length := by
      rw [BitVec.toNat_ofNat]; exact Nat.mod_eq_of_lt (by omega)
    refine ⟨_, _, runInstrs_send_partial op n q s hb hn hlt, rfl, ?_, ?_, fun _ => ⟨rfl, ?_, hrem⟩, fun he => ?_⟩
    · simp only [hrem, true_iff]; omega
    · simp only [true_iff]; exact hlt
    · simp only [hrem, List.length_append, frameHeader_length]; omega
    · omega
  case inr =>
    refine ⟨_, _, runInstrs_send op q s hb hn, rfl, ?_, ?_, fun hlt => ?_, fun _ => ⟨rfl, rfl⟩⟩
    · simp [TxUnit.idleWith]
    · simp [TxUnit.idleWith]
    · omega

/-- The three ranges of the length in `TX_START` (R124). -/
theorem TxUnit.length_cases (n : BitVec 32) :
    n = 0 ∨ (n ≠ 0 ∧ 1 ≤ n.toNat ∧ n.toNat ≤ 65535) ∨ 65535 < n.toNat := by
  by_cases h0 : n = 0
  · exact .inl h0
  · have h1 : n.toNat ≠ 0 := fun h => h0 (BitVec.eq_of_toNat_eq h)
    by_cases hfit : n.toNat ≤ 65535
    · exact .inr (.inl ⟨h0, by omega, hfit⟩)
    · exact .inr (.inr (by omega))

/-- `TX_BUSY` after a `TX_START` in `TX_IDLE`: a payload that fits is owed. -/
theorem TxUnit.start_busy (sof op : Byte) (n : BitVec 32) (tx : TxUnit) (hb : tx.busy = false) :
    (tx.start sof op n).busy = true ↔ 1 ≤ n.toNat ∧ n.toNat ≤ 65535 := by
  obtain rfl | ⟨h0, hpos, hfit⟩ | hlong := TxUnit.length_cases n
  · rw [TxUnit.start_empty]; simp [TxUnit.idleWith]
  · rw [TxUnit.start_data sof op n tx h0 hfit]; simp [hpos, hfit]
  · rw [TxUnit.start_tooLong sof op n tx hlong, TxUnit.reportTooLong_busy, hb]
    exact iff_of_false (by simp) (by omega)

/-- `TX_STATUS` after a `TX_START`: told by the length alone. -/
theorem TxUnit.start_status (sof op : Byte) (n : BitVec 32) (tx : TxUnit) :
    (tx.start sof op n).status = if n.toNat ≤ 65535 then .ok else .payloadTooLong := by
  obtain rfl | ⟨h0, -, hfit⟩ | hlong := TxUnit.length_cases n
  · rw [TxUnit.start_empty]; rfl
  · rw [TxUnit.start_data sof op n tx h0 hfit, if_pos hfit]
  · rw [TxUnit.start_tooLong sof op n tx hlong, if_neg (by omega), TxUnit.reportTooLong_status]

/-- `TX_BUSY` after a `TX_PAYLOAD` in `TX_DATA`: only the last byte owed clears it. -/
theorem TxUnit.payload_busy (b : Byte) (tx : TxUnit) (hb : tx.busy = true) :
    (tx.payload b).busy = true ↔ tx.rem ≠ 1 := by
  by_cases h1 : tx.rem = 1
  · simp [TxUnit.payload_last b tx h1, h1]
  · rw [TxUnit.payload_more b tx h1]; exact iff_of_true hb h1

@[simp] theorem TxUnit.payload_status (b : Byte) (tx : TxUnit) : (tx.payload b).status = tx.status := by
  by_cases h1 : tx.rem = 1
  · rw [TxUnit.payload_last b tx h1]
  · rw [TxUnit.payload_more b tx h1]

/-- Everything a send request that completes can have done (R121, R122, R127). -/
theorem sendFrame_cases {op : Byte} {p : List Byte} {s t : State} (h : sendFrame op p s = .next t) :
    s.tx.busy = false
    ∧ ((65535 < p.length ∧ t = { s with tx := s.tx.reportTooLong })
      ∨ (p.length ≤ 65535 ∧ t = { s with
          tx := .idleWith (s.tx.out ++ (frameHeader Config.sof op p.length ++ p
            ++ csResult (compute (frameHeader Config.sof op p.length ++ p)))) })) := by
  unfold sendFrame at h
  split at h
  · cases h
  · rename_i hb
    refine ⟨by simpa using hb, ?_⟩
    split at h
    · rename_i hlong
      cases h
      exact .inl ⟨hlong, rfl⟩
    · rename_i hfit
      have hfit : p.length ≤ 65535 := Nat.not_lt.mp hfit
      rw [TxUnit.send_all Config.sof op p s.tx hfit] at h
      cases h
      exact .inr ⟨hfit, rfl⟩

/-- A sent frame row leaves the TX unit idle. -/
theorem sendFrame_busy {op : Byte} {p : List Byte} {s t : State} (h : sendFrame op p s = .next t) :
    t.tx.busy = false := by
  obtain ⟨hb, ⟨-, rfl⟩ | ⟨-, rfl⟩⟩ := sendFrame_cases h
  · exact hb
  · rfl

/-- Settles O34: instruction by instruction, from what each leaves in the TX unit. -/
theorem busyFlagRule : Obligations.BusyFlagRule := by
  intro s t
  refine ⟨?txStart, ?txPayload, ?sentRow, ?rst, ?rxUnit⟩
  case txStart =>
    intro op n h
    obtain ⟨hb, rfl⟩ := exec_txStart_next h
    exact ⟨hb, TxUnit.start_busy Config.sof op n s.tx hb⟩
  case txPayload =>
    intro b h
    obtain ⟨hb, rfl⟩ := exec_txPayload_next h
    exact ⟨hb, TxUnit.payload_busy b s.tx hb⟩
  case sentRow =>
    intro op p h
    rw [exec_frameInstr] at h
    exact sendFrame_busy h
  case rst => intro h; cases h; rfl
  case rxUnit => exact fun i hi h => exec_rx_keeps_tx hi h

end Sys2Proof.Machine
end

section
/-! The RX unit over the bytes of a chunk, and who writes `RX_VALID`, `RX_DSTAT` and `RX_CSOK` (10_state.md
R33, R34, R43). -/

namespace Sys2Proof.Machine

/-- No byte of a chunk writes `RX_DSTAT`. -/
theorem RxUnit.bytes_dstat (bs : List Byte) (rx : RxUnit) :
    (bs.foldl (fun r b => r.byte b) rx).dstat = rx.dstat := by
  induction bs generalizing rx with
  | nil => rfl
  | cons b rest ih => rw [List.foldl_cons, ih, RxUnit.byte_dstat]

/-- No byte of a chunk writes `RX_CSOK`. -/
theorem RxUnit.bytes_csok (bs : List Byte) (rx : RxUnit) :
    (bs.foldl (fun r b => r.byte b) rx).csok = rx.csok := by
  induction bs generalizing rx with
  | nil => rfl
  | cons b rest ih => rw [List.foldl_cons, ih, RxUnit.byte_csok]

/-- The bytes of a chunk from between chunks (R43). -/
theorem RxUnit.holds_bytes_of_idle (bs : List Byte) (rx : RxUnit) (h : rx.idle) :
    (bs.foldl (fun r b => r.byte b) rx).Holds bs := by
  simpa using RxUnit.holds_bytes [] bs rx (RxUnit.holds_nil rx h)

/-- `RST` and `RX_END` complete in every state and leave the RX unit between chunks (R39). -/
theorem exec_boundary_idle {e : Instr} (he : e = .rst ∨ e = .rxEnd) (s : State) :
    ∃ t, exec e s = .next t ∧ t.rx.idle := by
  obtain rfl | rfl := he
  · exact ⟨_, exec_rst s, rfl, rfl⟩
  · exact ⟨_, rfl, RxUnit.idle_endChunk Config.sof s.rx⟩

/-- Settles O12: the chunk starts from an idle unit, and each byte extends what the unit holds. -/
theorem rxUnitHoldsChunkSoFar : Obligations.RxUnitHoldsChunkSoFar := by
  intro s e b he
  obtain ⟨t, ht, hidle⟩ := exec_boundary_idle he s
  exact ⟨t, _, ht, runInstrs_rxBytes b t, RxUnit.holds_bytes_of_idle b t.rx hidle,
    RxUnit.bytes_dstat b t.rx, RxUnit.bytes_csok b t.rx⟩

/-- Settles O35: each event's own lemma, and the unit that the other unit's instructions leave. -/
theorem resultFlagsHaveOneWriter : Obligations.ResultFlagsHaveOneWriter := by
  intro s t
  refine ⟨?txStart, ?txPayload, ?rxUnit, ?rxByte, ?txUnit, ?rst⟩
  case txStart =>
    intro op n h
    obtain ⟨-, rfl⟩ := exec_txStart_next h
    exact TxUnit.start_status Config.sof op n s.tx
  case txPayload =>
    intro b h
    obtain ⟨-, rfl⟩ := exec_txPayload_next h
    exact TxUnit.payload_status b s.tx
  case rxUnit => intro i hi h; rw [exec_rx_keeps_tx hi h]
  case rxByte => intro b h; cases h; exact ⟨RxUnit.byte_csok b s.rx, RxUnit.byte_dstat b s.rx⟩
  case txUnit => intro i hi h; rw [exec_tx_keeps_rx hi h]; exact ⟨rfl, rfl⟩
  case rst => intro h; cases h; exact ⟨rfl, rfl, rfl⟩

end Sys2Proof.Machine
end

section
/-! The host's reads by the window they fall in (10_state.md R33, 42_decoder.md R145, R147; log 16). -/

namespace Sys2Proof.Machine

section windows
variable {α : Type} {s : State} (v : α)

theorem State.whenValid_of_valid (hv : s.rx.valid = true) : s.whenValid v = .ok v := if_pos hv

theorem State.whenValid_of_not_valid (hv : s.rx.valid = false) : s.whenValid v = .error .resultNotValid :=
  if_neg (by simp [hv])

theorem State.whenOk_of_ok (hv : s.rx.valid = true) (hs : s.rx.status = .ok) : s.whenOk v = .ok v := by
  simp [State.whenOk, hv, hs]

theorem State.whenOk_of_error (hv : s.rx.valid = true) (hs : s.rx.status ≠ .ok) :
    s.whenOk v = .error .frameNotOk := by
  simp [State.whenOk, hv, hs]

theorem State.whenOk_of_not_valid (hv : s.rx.valid = false) : s.whenOk v = .error .resultNotValid :=
  if_neg (by simp [hv])

end windows

section readPbuf
variable {s : State} (j : Nat)

/-- A read of `PBUF` outside the window answers what any read of the frame view answers there. -/
theorem State.readPbuf_of_whenOk_error {e : ReadRefusal} (h : s.whenOk (s.rx.pbuf.read j) = .error e) :
    s.readPbuf j = .error e := by
  simp [State.readPbuf, h]

/-- A payload byte of an `OK` frame (R147). -/
theorem State.readPbuf_of_stored {x : Byte} (hv : s.rx.valid = true) (hs : s.rx.status = .ok)
    (hj : j < s.rx.len) (hx : s.rx.pbuf.read j = some x) : s.readPbuf j = .ok x := by
  simp [State.readPbuf, State.whenOk_of_ok _ hv hs, hx, hj]

/-- At the length and beyond nothing is read (R147). -/
theorem State.readPbuf_past (hv : s.rx.valid = true) (hs : s.rx.status = .ok) (hj : s.rx.len ≤ j) :
    s.readPbuf j = .error .pastPayload := by
  have hn : ¬ j < s.rx.len := Nat.not_lt.mpr hj
  rw [State.readPbuf, State.whenOk_of_ok _ hv hs]
  cases s.rx.pbuf.read j <;> simp [hn]

end readPbuf

/-- Settles O33: each event's own lemma for the flag, and the reads outside their window. -/
theorem validFlagRule : Obligations.ValidFlagRule := by
  intro s t
  refine ⟨?rxEnd, ?rxByte, ?rst, ?txUnit, ?receivedRow, ?reads⟩
  case rxEnd => intro h; cases h; rfl
  case rxByte => intro b h; cases h; exact RxUnit.byte_valid b s.rx
  case rst => intro h; cases h; rfl
  case txUnit => exact fun i hi h => exec_tx_keeps_rx hi h
  case receivedRow => intro op f h; rw [exec_frameInstr] at h; cases h; rfl
  case reads =>
    intro hv
    have hview {α : Type} (v : α) := State.whenOk_of_not_valid v hv
    have hresult {α : Type} (v : α) := State.whenValid_of_not_valid v hv
    exact ⟨hresult _, hresult _, hresult _, hview _, hview _, hview _, hview _, hview _,
      fun j => State.readPbuf_of_whenOk_error j (hview _)⟩

/-- `RECEIVE` hands on a frame only where `DECODE` gives it (R144). -/
theorem decodeChunk_of_receive_ok {sof : Byte} {b : List Byte} {f : FrameView} (h : receive sof b = .ok f) :
    decodeChunk sof b = .ok f := by
  unfold receive at h
  split at h
  · cases h
  · rename_i g hg
    split at h
    · cases h; exact hg
    · cases h

theorem receiveCode_of_receive_ok {sof : Byte} {b : List Byte} {f : FrameView} (h : receive sof b = .ok f) :
    receiveCode sof b = .ok := by
  simp [receiveCode, h]

/-- The length registers after a whole chunk that has bytes 6 and 7 (R56). -/
theorem RxUnit.chunk_lenBytes (sof : Byte) (b : List Byte) (rx : RxUnit) (h : rx.idle) (h8 : 8 ≤ b.length) :
    (rx.chunk sof b).lenLo = b.getD 6 0 ∧ (rx.chunk sof b).lenHi = b.getD 7 0 := by
  have hh := RxUnit.holds_bytes_of_idle b rx h
  rw [List.getD_eq_getElem?_getD, List.getD_eq_getElem?_getD, hh.lenLo (by omega), hh.lenHi h8]
  exact ⟨rfl, rfl⟩

/-- Settles O40: what the RX unit shows after the chunk, seen through the host's windows. -/
theorem hostReadsOnlyDeliveredFrame : Obligations.HostReadsOnlyDeliveredFrame := by
  intro s b hidle
  have hshows := RxUnit.shows_chunk b s.rx hidle
  have hresult {α : Type} {v w : α} (h : v = w) :
      State.whenValid { s with rx := s.rx.chunk Config.sof b } v = .ok w :=
    h ▸ State.whenValid_of_valid v hshows.valid
  refine ⟨_, runInstrs_recv b s, hshows.valid, hresult hshows.status, hresult hshows.dstat,
    hresult hshows.csok, ?delivered, ?withheld⟩
  case delivered =>
    intro f hf
    have hok : (s.rx.chunk Config.sof b).status = .ok := hshows.status.trans (receiveCode_of_receive_ok hf)
    obtain ⟨haddr, hop, hlen, hplen, hpay⟩ := hshows.view f hf
    obtain ⟨h10, -⟩ := decodeChunk_ok (decodeChunk_of_receive_ok hf)
    obtain ⟨hlo, hhi⟩ := RxUnit.chunk_lenBytes Config.sof b s.rx hidle (by omega)
    have hview {α : Type} {v w : α} (h : v = w) :
        State.whenOk { s with rx := s.rx.chunk Config.sof b } v = .ok w :=
      h ▸ State.whenOk_of_ok v hshows.valid hok
    refine ⟨hview haddr, hview hop, hview (congrArg (BitVec.ofNat 16) hlen), hview hlo, hview hhi,
      fun j hj => ?_, fun j hj => State.readPbuf_past j hshows.valid hok (hlen.trans_le hj)⟩
    have hj' : j < (s.rx.chunk Config.sof b).len := by rw [hlen]; exact hj
    refine State.readPbuf_of_stored j hshows.valid hok hj' ((hpay j hj').trans ?_)
    rw [List.getD_eq_getElem _ _ (by omega), List.getElem?_eq_getElem]
  case withheld =>
    intro hne
    have hnot : (s.rx.chunk Config.sof b).status ≠ .ok := hshows.status ▸ hne
    have hview {α : Type} (v : α) :
        State.whenOk { s with rx := s.rx.chunk Config.sof b } v = .error .frameNotOk :=
      State.whenOk_of_error v hshows.valid hnot
    exact ⟨hview _, hview _, hview _, hview _, hview _, fun j => State.readPbuf_of_whenOk_error j (hview _)⟩

end Sys2Proof.Machine
end

section
/-! What an instruction is, by its unit: an event or a frame row in one of its two forms; and what a TX
instruction that completes has done (30_encoding.md R75, R77, R85). -/

namespace Sys2Proof.Machine

/-- The form of a frame row; an event has none. -/
def formOf : Instr → Option FrameForm
  | .refreshNodesInfo form => some form
  | .setDateTime form => some form
  | .getNodesInfo form => some form
  | .getNodesState form => some form
  | .getGatewayState form => some form
  | .removeNodes form => some form
  | .callGatewayFromNode form => some form
  | .reportNodesBatteryLevel form => some form
  | .opOther _ form => some form
  | .txStart _ _ => none
  | .txPayload _ => none
  | .rxByte _ => none
  | .rxEnd => none
  | .rst => none

@[simp] theorem formOf_frameInstr (op : Byte) (form : FrameForm) : formOf (frameInstr op form) = some form := by
  rcases frameInstr_cases op form with
    ⟨-, e⟩ | ⟨-, e⟩ | ⟨-, e⟩ | ⟨-, e⟩ | ⟨-, e⟩ | ⟨-, e⟩ | ⟨-, e⟩ | ⟨-, e⟩ | ⟨-, e⟩ <;> rw [e] <;> rfl

theorem ne_frameInstr_of_event {i : Instr} (h : formOf i = none) (op : Byte) (form : FrameForm) :
    i ≠ frameInstr op form := by
  rintro rfl
  simp at h

/-- A frame row is the one shared operation with its own opcode byte (R76). -/
theorem exec_of_formOf {i : Instr} {form : FrameForm} (h : formOf i = some form) :
    ∃ op, ∀ s, exec i s = passFrame op form s := by
  cases i with
  | refreshNodesInfo _ | setDateTime _ | getNodesInfo _ | getNodesState _ | getGatewayState _
  | removeNodes _ | callGatewayFromNode _ | reportNodesBatteryLevel _ | opOther _ _ =>
    cases h; exact ⟨_, fun _ => rfl⟩
  | txStart _ _ | txPayload _ | rxByte _ | rxEnd | rst => cases h

theorem isTx_of_formOf {i : Instr} {form : FrameForm} (h : formOf i = some form) : isTx i = formIsTx form := by
  cases i with
  | refreshNodesInfo _ | setDateTime _ | getNodesInfo _ | getNodesState _ | getGatewayState _
  | removeNodes _ | callGatewayFromNode _ | reportNodesBatteryLevel _ | opOther _ _ => cases h; rfl
  | txStart _ _ | txPayload _ | rxByte _ | rxEnd | rst => cases h

/-- The TX unit's instructions: its two events and the rows in their send form. -/
theorem isTx_cases {i : Instr} (h : isTx i = true) :
    (∃ op n, i = .txStart op n) ∨ (∃ b, i = .txPayload b) ∨ ∃ p, formOf i = some (.send p) := by
  cases i with
  | refreshNodesInfo form | setDateTime form | getNodesInfo form | getNodesState form | getGatewayState form
  | removeNodes form | callGatewayFromNode form | reportNodesBatteryLevel form | opOther _ form =>
    cases form with
    | send p => exact .inr (.inr ⟨p, rfl⟩)
    | recv f => cases h
  | txStart op n => exact .inl ⟨op, n, rfl⟩
  | txPayload b => exact .inr (.inl ⟨b, rfl⟩)
  | rxByte _ | rxEnd | rst => cases h

/-- The RX unit's instructions: its two events and the rows in their receive form. -/
theorem isRx_cases {i : Instr} (h : isRx i = true) :
    (∃ b, i = .rxByte b) ∨ i = .rxEnd ∨ ∃ f, formOf i = some (.recv f) := by
  cases i with
  | refreshNodesInfo form | setDateTime form | getNodesInfo form | getNodesState form | getGatewayState form
  | removeNodes form | callGatewayFromNode form | reportNodesBatteryLevel form | opOther _ form =>
    cases form with
    | send p => cases h
    | recv f => exact .inr (.inr ⟨f, rfl⟩)
  | rxByte b => exact .inl ⟨b, rfl⟩
  | rxEnd => exact .inr (.inl rfl)
  | txStart _ _ | txPayload _ | rst => cases h

/-- Everything a TX instruction that completes can have done. -/
theorem exec_tx_next_cases {i : Instr} {s t : State} (hi : isTx i = true) (h : exec i s = .next t) :
    (∃ op n, s.tx.busy = false ∧ t = { s with tx := s.tx.start Config.sof op n })
    ∨ (∃ b, s.tx.busy = true ∧ t = { s with tx := s.tx.payload b })
    ∨ ∃ op p, sendFrame op p s = .next t := by
  obtain ⟨op, n, rfl⟩ | ⟨b, rfl⟩ | ⟨p, hp⟩ := isTx_cases hi
  · exact .inl ⟨op, n, exec_txStart_next h⟩
  · exact .inr (.inl ⟨b, exec_txPayload_next h⟩)
  · obtain ⟨op, hexec⟩ := exec_of_formOf hp
    exact .inr (.inr ⟨op, p, (hexec s).symm.trans h⟩)

/-- `RST` is of neither unit. -/
theorem not_rst_of_unit {i : Instr} (h : isTx i = true ∨ isRx i = true) : i ≠ .rst := by
  rintro rfl
  exact absurd h (by decide)

theorem isRx_iff_of_unit {i : Instr} (h : isTx i = true ∨ isRx i = true) : isRx i = true ↔ ¬ isTx i = true := by
  simp [isRx, not_rst_of_unit h]

/-- A run that completes, taken apart at its first instruction. -/
theorem runInstrs_cons_inv {i : Instr} {rest : List Instr} {s t : State}
    (h : runInstrs (i :: rest) s = .next t) : ∃ m, exec i s = .next m ∧ runInstrs rest m = .next t := by
  rw [runInstrs] at h
  split at h
  · exact ⟨_, ‹_›, h⟩
  · cases h
  · cases h

/-- The first instruction of a run is refused. -/
theorem runInstrs_cons_refused {i : Instr} {rest : List Instr} {s : State} {r : Refusal}
    (h : exec i s = .refused r) : runInstrs (i :: rest) s = .refused r := by
  simp [runInstrs, h]

/-- What every instruction of a list keeps, a run of the list keeps. -/
theorem runInstrs_keeps {P : State → Prop} {es : List Instr} {s t : State}
    (hstep : ∀ i ∈ es, ∀ u v, P u → exec i u = .next v → P v) (hs : P s) (h : runInstrs es s = .next t) :
    P t := by
  induction es generalizing s with
  | nil => cases h; exact hs
  | cons i rest ih =>
    obtain ⟨m, hm, hrest⟩ := runInstrs_cons_inv h
    exact ih (fun j hj => hstep j (List.mem_cons_of_mem _ hj)) (hstep i List.mem_cons_self s m hs hm) hrest

end Sys2Proof.Machine
end

section
/-! `TX_OUT`: it only grows, and without `RST` it is whole frames and at most the beginning of one more
(20_memory.md R58, R60). -/

namespace Sys2Proof.Machine

theorem TxUnit.start_out_grows (sof op : Byte) (n : BitVec 32) (tx : TxUnit) :
    ∃ e, (tx.start sof op n).out = tx.out ++ e := by
  obtain rfl | ⟨h0, -, hfit⟩ | hlong := TxUnit.length_cases n
  · rw [TxUnit.start_empty]; exact ⟨_, rfl⟩
  · rw [TxUnit.start_data sof op n tx h0 hfit]; exact ⟨_, rfl⟩
  · rw [TxUnit.start_tooLong sof op n tx hlong]; exact ⟨[], by simp⟩

theorem TxUnit.payload_out_grows (b : Byte) (tx : TxUnit) : ∃ e, (tx.payload b).out = tx.out ++ e := by
  by_cases h1 : tx.rem = 1
  · rw [TxUnit.payload_last b tx h1]; exact ⟨_, rfl⟩
  · rw [TxUnit.payload_more b tx h1]; exact ⟨_, rfl⟩

theorem sendFrame_out_grows {op : Byte} {p : List Byte} {s t : State} (h : sendFrame op p s = .next t) :
    ∃ e, t.tx.out = s.tx.out ++ e := by
  obtain ⟨-, ⟨-, rfl⟩ | ⟨-, rfl⟩⟩ := sendFrame_cases h
  · exact ⟨[], by simp⟩
  · exact ⟨_, rfl⟩

/-- An instruction that is not of the TX unit emits nothing. -/
theorem exec_keeps_out {i : Instr} {s t : State} (hi : isTx i = false) (h : exec i s = .next t) :
    t.tx.out = s.tx.out := by
  obtain htx | hrx | rfl := tx_or_rx_or_rst i
  · rw [hi] at htx; cases htx
  · rw [exec_rx_keeps_tx hrx h]
  · cases (exec_rst s).symm.trans h; rfl

/-- Settles O36: by what a TX instruction can have done; every other instruction leaves the list. -/
theorem outputOnlyGrows : Obligations.OutputOnlyGrows := by
  intro i s t h
  refine ⟨?_, fun hi => exec_keeps_out hi h⟩
  cases hi : isTx i with
  | false => exact ⟨[], by rw [exec_keeps_out hi h, List.append_nil]⟩
  | true =>
    obtain ⟨op, n, -, rfl⟩ | ⟨b, -, rfl⟩ | ⟨op, p, hsend⟩ := exec_tx_next_cases hi h
    · exact TxUnit.start_out_grows Config.sof op n s.tx
    · exact TxUnit.payload_out_grows b s.tx
    · exact sendFrame_out_grows hsend

/-- Bytes that are frames of `ENCODE`, one after the other. -/
def WholeFrames (w : List Byte) : Prop :=
  ∃ frames : List (List Byte), w = frames.flatten ∧ ∀ f ∈ frames, ∃ op p, encodeFrame Config.sof op p = .ok f

theorem WholeFrames.nil : WholeFrames [] := ⟨[], rfl, by simp⟩

theorem WholeFrames.append_frame {w : List Byte} (hw : WholeFrames w) (op : Byte) (p : List Byte)
    (hp : p.length ≤ 65535) :
    WholeFrames (w ++ (frameHeader Config.sof op p.length ++ p
      ++ csResult (compute (frameHeader Config.sof op p.length ++ p)))) := by
  obtain ⟨frames, rfl, hframes⟩ := hw
  refine ⟨frames ++ [_], by rw [List.flatten_append, List.flatten_singleton], fun f hf => ?_⟩
  obtain hf | hf := List.mem_append.mp hf
  · exact hframes f hf
  · exact ⟨op, p, by rw [List.mem_singleton.mp hf, encodeFrame_ok Config.sof op p hp]⟩

/-- What the TX unit has put on `TX_OUT` since it held `start`: whole frames, and in `TX_DATA` behind them the
header and the payload `q` of a frame of which `TX_REM` payload bytes are missing (R44, R60). -/
inductive TxUnit.OutputSince (start : List Byte) (tx : TxUnit) : Prop
  | idle (w : List Byte) (busy : tx.busy = false) (whole : WholeFrames w) (out : tx.out = start ++ w)
  | inFrame (w : List Byte) (op : Byte) (q : List Byte) (busy : tx.busy = true) (whole : WholeFrames w)
      (owed : 1 ≤ tx.rem.toNat) (fits : q.length + tx.rem.toNat ≤ 65535)
      (sums : tx.cse = compute (frameHeader Config.sof op (q.length + tx.rem.toNat) ++ q))
      (out : tx.out = start ++ w ++ (frameHeader Config.sof op (q.length + tx.rem.toNat) ++ q))

section outputSince
variable {start : List Byte} {tx : TxUnit} (h : tx.OutputSince start)
include h

/-- In `TX_IDLE` everything put out is whole frames. -/
theorem TxUnit.OutputSince.whole_of_idle (hb : tx.busy = false) :
    ∃ w, WholeFrames w ∧ tx.out = start ++ w := by
  cases h with
  | idle w _ whole out => exact ⟨w, whole, out⟩
  | inFrame w op q busy => rw [hb] at busy; cases busy

/-- `TX_START` begins a frame behind whole ones, or sends the shortest frame, or nothing. -/
theorem TxUnit.outputSince_start (hb : tx.busy = false) (op : Byte) (n : BitVec 32) :
    (tx.start Config.sof op n).OutputSince start := by
  obtain ⟨w, whole, out⟩ := h.whole_of_idle hb
  obtain rfl | ⟨h0, h1, hfit⟩ | hlong := TxUnit.length_cases n
  · rw [TxUnit.start_empty]
    refine .idle _ rfl (whole.append_frame op [] (by simp)) ?_
    simp [TxUnit.idleWith, out]
  · have hn : (BitVec.ofNat 16 n.toNat).toNat = n.toNat := by
      rw [BitVec.toNat_ofNat]; exact Nat.mod_eq_of_lt (by omega)
    rw [TxUnit.start_data Config.sof op n tx h0 hfit]
    refine .inFrame w op [] rfl whole ?_ ?_ ?_ ?_
    all_goals simp only [hn, List.length_nil, Nat.zero_add, List.append_nil]
    · exact h1
    · exact hfit
    · rw [out]
  · rw [TxUnit.start_tooLong Config.sof op n tx hlong]
    exact .idle w hb whole out

/-- `TX_PAYLOAD` adds a byte to the frame begun, and ends it with the last one. -/
theorem TxUnit.outputSince_payload (hb : tx.busy = true) (b : Byte) : (tx.payload b).OutputSince start := by
  cases h with
  | idle w busy => rw [hb] at busy; cases busy
  | inFrame w op q busy whole owed fits sums out =>
    have hq : (q ++ [b]).length = q.length + 1 := by simp
    by_cases h1 : tx.rem = 1
    · have hr : tx.rem.toNat = 1 := by rw [h1]; rfl
      rw [hr] at fits sums out
      rw [TxUnit.payload_last b tx h1]
      refine .idle _ rfl (whole.append_frame op (q ++ [b]) (by omega)) ?_
      rw [hq, ← List.append_assoc _ q [b], compute_snoc, ← sums, out]
      simp
    · have hr : (tx.rem - 1).toNat = tx.rem.toNat - 1 := by
        have := tx.rem.isLt; bv_omega
      have hne : tx.rem.toNat ≠ 1 := fun he => h1 (BitVec.eq_of_toNat_eq he)
      have hlen : (q ++ [b]).length + (tx.rem - 1).toNat = q.length + tx.rem.toNat := by omega
      rw [TxUnit.payload_more b tx h1]
      refine .inFrame w op (q ++ [b]) busy whole ?_ ?_ ?_ ?_
      all_goals simp only [hlen]
      · omega
      · exact fits
      · rw [← List.append_assoc _ q [b], compute_snoc, sums]
      · rw [out]; simp

end outputSince

/-- A sent row adds one whole frame, or nothing. -/
theorem sendFrame_outputSince {start : List Byte} {op : Byte} {p : List Byte} {s t : State}
    (hs : s.tx.OutputSince start) (h : sendFrame op p s = .next t) : t.tx.OutputSince start := by
  obtain ⟨hb, hcase⟩ := sendFrame_cases h
  obtain ⟨w, whole, out⟩ := hs.whole_of_idle hb
  obtain ⟨-, rfl⟩ | ⟨hfit, rfl⟩ := hcase
  · exact .idle w hb whole out
  · exact .idle _ rfl (whole.append_frame op p hfit) (by simp [TxUnit.idleWith, out])

/-- Without `RST` every instruction keeps the output whole frames and the beginning of one. -/
theorem exec_keeps_outputSince {start : List Byte} {i : Instr} {s t : State}
    (hi : isTx i = true ∨ isRx i = true) (hs : s.tx.OutputSince start) (h : exec i s = .next t) :
    t.tx.OutputSince start := by
  obtain hi | hi := hi
  · obtain ⟨op, n, hb, rfl⟩ | ⟨b, hb, rfl⟩ | ⟨op, p, hsend⟩ := exec_tx_next_cases hi h
    · exact TxUnit.outputSince_start hs hb op n
    · exact TxUnit.outputSince_payload hs hb b
    · exact sendFrame_outputSince hs hsend
  · rw [exec_rx_keeps_tx hi h]; exact hs

/-- The header and the first payload bytes begin the frame that any missing bytes complete. -/
theorem encodeFrame_take_begun (sof op : Byte) (q r : List Byte) (h : q.length + r.length ≤ 65535) :
    ∃ f, encodeFrame sof op (q ++ r) = .ok f
      ∧ f.take (frameHeader sof op (q.length + r.length) ++ q).length
        = frameHeader sof op (q.length + r.length) ++ q := by
  refine ⟨_, encodeFrame_ok sof op (q ++ r) (by simpa using h), ?_⟩
  rw [List.length_append (as := q), ← List.append_assoc _ q r, List.append_assoc _ r, List.take_left]

/-- Settles O37: `TxUnit.OutputSince` holds at the start and is kept, and says what the run has put out. -/
theorem outputIsWholeFrames : Obligations.OutputIsWholeFrames := by
  intro s t es hb hes hrun
  have hstart : s.tx.OutputSince s.tx.out := .idle [] hb .nil (List.append_nil _).symm
  have hend : t.tx.OutputSince s.tx.out :=
    runInstrs_keeps (P := fun u => u.tx.OutputSince s.tx.out)
      (fun i hi _ _ hu hexec => exec_keeps_outputSince (hes i hi) hu hexec) hstart hrun
  cases hend with
  | idle w busy whole out =>
    obtain ⟨frames, rfl, hframes⟩ := whole
    exact ⟨frames, [], by rw [out, List.append_nil], hframes, fun _ => rfl,
      fun hbusy => by rw [busy] at hbusy; cases hbusy⟩
  | inFrame w op q busy whole owed fits sums out =>
    obtain ⟨frames, rfl, hframes⟩ := whole
    refine ⟨frames, _, out, hframes, fun hidle => ?_, fun _ => ⟨op, q, by simp, fun r hr => ?_⟩⟩
    · rw [busy] at hidle; cases hidle
    · rw [← hr] at fits ⊢
      exact encodeFrame_take_begun Config.sof op q r fits

end Sys2Proof.Machine
end

section
/-! The two units do not interfere: a run without `RST`, seen from one unit, is the run of that unit's
instructions (20_memory.md R59, 10_state.md R20). -/

namespace Sys2Proof.Machine

/-- What a TX instruction does to the TX unit depends on that unit alone. -/
theorem exec_tx_congr {i : Instr} {s s' t : State} (hi : isTx i = true) (hs : s'.tx = s.tx)
    (h : exec i s = .next t) : ∃ t', exec i s' = .next t' ∧ t'.tx = t.tx := by
  obtain ⟨tx', hnext, -⟩ | ⟨r, href⟩ := exec_tx hi s.tx
  · cases (hnext s.rx s.inputs s.freeTick).symm.trans h
    exact ⟨{ s' with tx := tx' }, by rw [← hnext s'.rx s'.inputs s'.freeTick, ← hs], rfl⟩
  · cases (href s.rx s.inputs s.freeTick).symm.trans h

/-- What an RX instruction does to the RX unit depends on that unit alone. -/
theorem exec_rx_congr {i : Instr} {s s' t : State} (hi : isRx i = true) (hs : s'.rx = s.rx)
    (h : exec i s = .next t) : ∃ t', exec i s' = .next t' ∧ t'.rx = t.rx := by
  obtain ⟨rx', hnext, -⟩ := exec_rx hi s.rx
  cases (hnext s.tx s.inputs s.freeTick).symm.trans h
  exact ⟨{ s' with rx := rx' }, by rw [← hnext s'.tx s'.inputs s'.freeTick, ← hs], rfl⟩

/-- An RX instruction completes in every state. -/
theorem exec_rx_completes {i : Instr} (hi : isRx i = true) (s : State) : ∃ t, exec i s = .next t := by
  obtain ⟨rx', hnext, -⟩ := exec_rx hi s.rx
  exact ⟨_, hnext s.tx s.inputs s.freeTick⟩

/-- A part `view` of the state that the instructions `own` alone write and depend on, after a run, is what its
own instructions leave from any state with the same part. -/
theorem runInstrs_filter {α : Type} (own : Instr → Bool) (view : State → α) {es : List Instr}
    (hown : ∀ i ∈ es, own i = true → ∀ s s' t, view s' = view s → exec i s = .next t →
      ∃ t', exec i s' = .next t' ∧ view t' = view t)
    (hother : ∀ i ∈ es, ¬ own i = true → ∀ s t, exec i s = .next t → view t = view s)
    {s s' t : State} (hs : view s' = view s) (h : runInstrs es s = .next t) :
    ∃ u, runInstrs (es.filter own) s' = .next u ∧ view u = view t := by
  induction es generalizing s s' with
  | nil => cases h; exact ⟨s', rfl, hs⟩
  | cons i rest ih =>
    replace ih := @ih (fun j hj => hown j (List.mem_cons_of_mem _ hj))
      (fun j hj => hother j (List.mem_cons_of_mem _ hj))
    obtain ⟨m, hm, hrest⟩ := runInstrs_cons_inv h
    by_cases hi : own i = true
    · obtain ⟨m', hm', hview⟩ := hown i List.mem_cons_self hi s s' m hs hm
      rw [List.filter_cons_of_pos hi, runInstrs_cons_next hm']
      exact ih hview hrest
    · rw [List.filter_cons_of_neg hi]
      exact ih (hs.trans (hother i List.mem_cons_self hi s m hm).symm) hrest

/-- The TX unit after a run without `RST`. -/
theorem runInstrs_filter_isTx {es : List Instr} (hes : Claims.UnitEvents es) {s t : State}
    (h : runInstrs es s = .next t) : ∃ u, runInstrs (es.filter isTx) s = .next u ∧ u.tx = t.tx :=
  runInstrs_filter isTx State.tx (fun _ _ htx _ _ _ => exec_tx_congr htx)
    (fun i hi htx _ _ => exec_rx_keeps_tx ((isRx_iff_of_unit (hes i hi)).mpr htx)) rfl h

/-- The RX unit after a run without `RST`. -/
theorem runInstrs_filter_isRx {es : List Instr} (hes : Claims.UnitEvents es) {s t : State}
    (h : runInstrs es s = .next t) : ∃ v, runInstrs (es.filter isRx) s = .next v ∧ v.rx = t.rx :=
  runInstrs_filter isRx State.rx (fun _ _ hrx _ _ _ => exec_rx_congr hrx)
    (fun i hi hrx _ _ => exec_tx_keeps_rx ((hes i hi).resolve_right hrx)) rfl h

/-- Only the TX instructions of a run without `RST` can stop it. -/
theorem runInstrs_completes_of_filter_isTx {es : List Instr} (hes : Claims.UnitEvents es) {s s' u : State}
    (hs : s'.tx = s.tx) (h : runInstrs (es.filter isTx) s = .next u) : ∃ t, runInstrs es s' = .next t := by
  induction es generalizing s s' with
  | nil => exact ⟨s', rfl⟩
  | cons i rest ih =>
    replace ih := @ih fun j hj => hes j (List.mem_cons_of_mem _ hj)
    obtain hi | hi := hes i List.mem_cons_self
    · rw [List.filter_cons_of_pos hi] at h
      obtain ⟨m, hm, hrest⟩ := runInstrs_cons_inv h
      obtain ⟨m', hm', htx⟩ := exec_tx_congr hi hs hm
      rw [runInstrs_cons_next hm']
      exact ih htx hrest
    · rw [List.filter_cons_of_neg ((isRx_iff_of_unit (.inr hi)).mp hi)] at h
      obtain ⟨m', hm'⟩ := exec_rx_completes hi s'
      rw [runInstrs_cons_next hm']
      exact ih ((exec_rx_keeps_tx hi hm').trans hs) h

/-- A TX and an RX instruction commute, refusals included. -/
theorem runInstrs_tx_rx_comm {i j : Instr} (hi : isTx i = true) (hj : isRx j = true) (s : State) :
    runInstrs [i, j] s = runInstrs [j, i] s := by
  obtain ⟨rx', hrx, -⟩ := exec_rx hj s.rx
  obtain ⟨tx', htx, -⟩ | ⟨r, href⟩ := exec_tx hi s.tx
  · simp only [runInstrs, hrx s.tx, htx s.rx, hrx tx', htx rx']
  · simp only [runInstrs, hrx s.tx, href s.rx, href rx']

/-- Settles O31: each unit's part of the run, the part that can stop it, and one step of each unit. -/
theorem unitsDoNotInterfere : Obligations.UnitsDoNotInterfere := by
  intro s es hes
  refine ⟨fun t h => ?_, fun u h => runInstrs_completes_of_filter_isTx hes rfl h,
    fun i j hi hj => runInstrs_tx_rx_comm hi hj s⟩
  obtain ⟨u, hu, htx⟩ := runInstrs_filter_isTx hes h
  obtain ⟨v, hv, hrx⟩ := runInstrs_filter_isRx hes h
  exact ⟨u, v, hu, hv, htx.symm, hrx.symm⟩

end Sys2Proof.Machine
end

section
/-! Stepping over the presented words of a list of instructions is running it (20_memory.md R58). -/

namespace Sys2Proof.Machine

/-- The decoder reads every well-formed instruction back from what the encoder writes. -/
theorem decode_encode {i : Instr} (h : i.wf = true) : decodeInput (encodeInstr i) = .ok i := by
  cases i with
  | refreshNodesInfo form => exact Laws.RoundTrip.refreshNodesInfo form h
  | setDateTime form => exact Laws.RoundTrip.setDateTime form h
  | getNodesInfo form => exact Laws.RoundTrip.getNodesInfo form h
  | getNodesState form => exact Laws.RoundTrip.getNodesState form h
  | getGatewayState form => exact Laws.RoundTrip.getGatewayState form h
  | removeNodes form => exact Laws.RoundTrip.removeNodes form h
  | callGatewayFromNode form => exact Laws.RoundTrip.callGatewayFromNode form h
  | reportNodesBatteryLevel form => exact Laws.RoundTrip.reportNodesBatteryLevel form h
  | opOther op form => exact Laws.RoundTrip.opOther op form h
  | txStart op n => exact Laws.RoundTrip.txStart op n h
  | txPayload b => exact Laws.RoundTrip.txPayload b h
  | rxByte b => exact Laws.RoundTrip.rxByte b h
  | rxEnd => exact Laws.RoundTrip.rxEnd h
  | rst => exact Laws.RoundTrip.rst h

/-- An instruction neither depends on the inputs still to come nor changes them. -/
theorem exec_inputs_cases (i : Instr) (s : State) :
    (∃ t : State, ∀ q, exec i { s with inputs := q } = .next { t with inputs := q })
    ∨ ∃ r, ∀ q, exec i { s with inputs := q } = .refused r := by
  obtain hi | hi | rfl := tx_or_rx_or_rst i
  · obtain ⟨tx', hnext, -⟩ | ⟨r, href⟩ := exec_tx hi s.tx
    · exact .inl ⟨{ s with tx := tx' }, fun q => hnext s.rx q s.freeTick⟩
    · exact .inr ⟨r, fun q => href s.rx q s.freeTick⟩
  · obtain ⟨rx', hnext, -⟩ := exec_rx hi s.rx
    exact .inl ⟨{ s with rx := rx' }, fun q => hnext s.tx q s.freeTick⟩
  · exact .inl ⟨{ s with tx := s.tx.clear, rx := .cleared s.freeTick, freeTick := s.freeTick + 10 },
      fun q => exec_rst { s with inputs := q }⟩

/-- A step on the presented word of a well-formed instruction. -/
theorem step_of_presented {i : Instr} (h : i.wf = true) (s : State) (rest : List Input) :
    step { s with inputs := encodeInstr i :: rest } = exec i { s with inputs := rest } :=
  step_of_decode_ok rfl (decode_encode h)

theorem core_run_of_next {s t : State} (h : step s = .next t) (k : Nat) :
    Host.Core.run core (k + 1) s = Host.Core.run core k t := by
  have hstep : core.step s = .next t := h
  simp [Host.Core.run, hstep]

theorem core_run_of_refused {s : State} {r : Refusal} (h : step s = .refused r) (k : Nat) :
    Host.Core.run core (k + 1) s = .refused r := by
  have hstep : core.step s = .refused r := h
  simp [Host.Core.run, hstep]

/-- Settles O46: by induction on the instructions; each step takes one word and runs what it stands for. -/
theorem stepsRunPresentedInstructions : Obligations.StepsRunPresentedInstructions := by
  intro s is rest hwf
  induction is generalizing s with
  | nil => rfl
  | cons i is ih =>
    have hstep : step { s with inputs := (i :: is).map encodeInstr ++ rest }
        = exec i { s with inputs := is.map encodeInstr ++ rest } :=
      step_of_presented (hwf i List.mem_cons_self) s _
    obtain ⟨t, hnext⟩ | ⟨r, href⟩ := exec_inputs_cases i s
    · exact (core_run_of_next (hstep.trans (hnext _)) is.length).trans
        ((ih t fun j hj => hwf j (List.mem_cons_of_mem _ hj)).trans (runInstrs_cons_next (hnext rest)).symm)
    · exact (core_run_of_refused (hstep.trans (href _)) is.length).trans (runInstrs_cons_refused (href rest)).symm

end Sys2Proof.Machine
end

section
/-! No step loads from `PBUF`: where each operation of the RX unit stores, whatever is there (20_memory.md
R63, 42_decoder.md R146, R147). -/

namespace Sys2Proof.Machine

/-- The operation `f`, done on the unit `rx`, stores at the addresses `stored` and reads none: elsewhere `PBUF`
reads as before, and with other contents `m` the registers and the bytes stored are the same. -/
def RxUnit.StoresAt (f : RxUnit → RxUnit) (rx : RxUnit) (stored : Nat → Prop) : Prop :=
  (∀ a, ¬ stored a → (f rx).pbuf.read a = rx.pbuf.read a)
  ∧ ∀ m : Memory, ∃ m',
      f { rx with pbuf := m } = { f rx with pbuf := m' }
      ∧ (∀ a, stored a → m'.read a = (f rx).pbuf.read a)
      ∧ ∀ a, ¬ stored a → m'.read a = m.read a

/-- Nothing is done to the RX unit. -/
theorem RxUnit.storesAt_id (rx : RxUnit) : RxUnit.StoresAt id rx fun _ => False :=
  ⟨fun _ _ => rfl, fun m => ⟨m, rfl, fun _ h => h.elim, fun _ _ => rfl⟩⟩

/-- `RX_END` stores nothing (R149). -/
theorem RxUnit.storesAt_endChunk (sof : Byte) (rx : RxUnit) :
    RxUnit.StoresAt (RxUnit.endChunk sof) rx fun _ => False :=
  ⟨fun _ _ => rfl, fun m => ⟨m, rfl, fun _ h => h.elim, fun _ _ => rfl⟩⟩

/-- `RST` leaves no value at any address (log 7). -/
theorem RxUnit.storesAt_cleared (tick : Nat) (rx : RxUnit) :
    RxUnit.StoresAt (fun _ => .cleared tick) rx fun _ => True :=
  ⟨fun _ h => absurd trivial h, fun _ => ⟨[], rfl, fun _ _ => rfl, fun _ h => absurd trivial h⟩⟩

/-- `RX_BYTE` stores at the address of its offset, if there is one (R146). -/
theorem RxUnit.storesAt_byte (b : Byte) (rx : RxUnit) :
    RxUnit.StoresAt (RxUnit.byte b) rx fun a => rx.storeAddress rx.pos.toNat = some a := by
  unfold RxUnit.StoresAt
  simp only [RxUnit.byte_withPbuf, RxUnit.byte_pbuf]
  cases rx.storeAddress rx.pos.toNat with
  | none => exact ⟨fun _ _ => rfl, fun m => ⟨m, rfl, nofun, fun _ _ => rfl⟩⟩
  | some x =>
    have hother : ∀ (m : Memory) a, ¬ some x = some a → (m.write x b).read a = m.read a :=
      fun m a ha => Memory.read_write_other m x a b fun hx => ha (congrArg some hx)
    refine ⟨fun a ha => hother rx.pbuf a ha, fun m => ⟨m.write x b, rfl, fun a ha => ?_, fun a ha => hother m a ha⟩⟩
    cases ha
    rw [Memory.read_write_same, Memory.read_write_same]

/-- A chunk received from between chunks is stored below its length field, as far as its bytes arrive. -/
theorem RxUnit.storesAt_chunk_of_idle (bs : List Byte) (rx : RxUnit) (h : rx.idle) :
    RxUnit.StoresAt (RxUnit.chunk Config.sof bs) rx
      fun a => a + 8 < bs.length ∧ a < le16 (bs.getD 6 0) (bs.getD 7 0) := by
  refine ⟨fun a ha => by rw [RxUnit.chunk_pbuf_read bs rx h, if_neg ha], fun m => ?_⟩
  obtain ⟨_, -, hother⟩ := RxUnit.chunk_withPbuf bs rx
  obtain ⟨m', he, -⟩ := hother m
  have hread : ∀ a, m'.read a =
      if a + 8 < bs.length ∧ a < le16 (bs.getD 6 0) (bs.getD 7 0) then bs[8 + a]? else m.read a := by
    have hpbuf : (({ rx with pbuf := m } : RxUnit).chunk Config.sof bs).pbuf = m' := by rw [he]
    exact hpbuf ▸ RxUnit.chunk_pbuf_read bs { rx with pbuf := m } h
  refine ⟨m', he, fun a ha => ?_, fun a ha => ?_⟩
  · rw [hread, RxUnit.chunk_pbuf_read bs rx h, if_pos ha, if_pos ha]
  · rw [hread, if_neg ha]

/-- A chunk, wherever it arrives; between chunks the addresses are those of its bytes. -/
theorem RxUnit.storesAt_chunk (bs : List Byte) (rx : RxUnit) :
    ∃ stored, RxUnit.StoresAt (RxUnit.chunk Config.sof bs) rx stored
      ∧ (rx.idle → ∀ a, stored a ↔ a + 8 < bs.length ∧ a < le16 (bs.getD 6 0) (bs.getD 7 0)) := by
  by_cases h : rx.idle
  · exact ⟨_, RxUnit.storesAt_chunk_of_idle bs rx h, fun _ _ => Iff.rfl⟩
  · obtain ⟨stored, hstored⟩ := RxUnit.chunk_withPbuf bs rx
    exact ⟨stored, hstored, fun hidle => absurd hidle h⟩

/-- The length field of a frame and the room its bytes give, in the frame's own terms (R56). -/
theorem bytes_stored_iff (op : Byte) (f : FrameFields) (a : Nat) :
    (a + 8 < (f.bytes op).length ∧ a < le16 ((f.bytes op).getD 6 0) ((f.bytes op).getD 7 0))
      ↔ a < f.payloadLength.toNat ∧ a < f.payload.length + 2 := by
  have hlen : le16 ((f.bytes op).getD 6 0) ((f.bytes op).getD 7 0) = f.payloadLength.toNat := by
    rw [FrameFields.bytes_eq]
    exact le16_lo8_hi8 _ f.payloadLength.isLt
  rw [hlen, FrameFields.bytes_length]
  omega

/-- The clauses of `PayloadBufferIsNeverLoaded` that hold of every instruction: it stores at `stored` alone, and
loads nothing. -/
def StoresWithoutLoad (i : Instr) (s t : State) (stored : Nat → Prop) : Prop :=
  (∀ a, ¬ stored a → t.rx.pbuf.read a = s.rx.pbuf.read a)
  ∧ ∀ m : Memory, ∃ m',
      exec i { s with rx := { s.rx with pbuf := m } } = .next { t with rx := { t.rx with pbuf := m' } }
      ∧ (∀ a, stored a → m'.read a = t.rx.pbuf.read a)
      ∧ ∀ a, ¬ stored a → m'.read a = m.read a

/-- An instruction that is `f` on the RX unit, whatever that unit holds, stores where `f` does. -/
theorem storesWithoutLoad_of_storesAt {i : Instr} {s t : State} {f : RxUnit → RxUnit} {stored : Nat → Prop}
    (hexec : ∀ rx, exec i { s with rx := rx } = .next { t with rx := f rx }) (h : exec i s = .next t)
    (hf : RxUnit.StoresAt f s.rx stored) : StoresWithoutLoad i s t stored := by
  have ht : t.rx = f s.rx := congrArg State.rx (Host.Outcome.next.inj (h.symm.trans (hexec s.rx)))
  obtain ⟨hkeep, hother⟩ := hf
  refine ⟨by rwa [ht], fun m => ?_⟩
  obtain ⟨m', he, hm'⟩ := hother m
  exact ⟨m', by rw [hexec, he, ht], by rwa [ht]⟩

/-- A TX instruction stores nothing. -/
theorem exec_tx_storesWithoutLoad {i : Instr} {s t : State} (hi : isTx i = true) (h : exec i s = .next t) :
    StoresWithoutLoad i s t fun _ => False := by
  refine storesWithoutLoad_of_storesAt (f := id) (fun rx => ?_) h (RxUnit.storesAt_id s.rx)
  obtain ⟨tx', hnext, -⟩ | ⟨r, href⟩ := exec_tx hi s.tx
  · cases (hnext s.rx s.inputs s.freeTick).symm.trans h
    exact hnext rx s.inputs s.freeTick
  · cases (href s.rx s.inputs s.freeTick).symm.trans h

theorem exec_rxByte_storesWithoutLoad {b : Byte} {s t : State} (h : exec (.rxByte b) s = .next t) :
    StoresWithoutLoad (.rxByte b) s t fun a => s.rx.storeAddress s.rx.pos.toNat = some a := by
  cases h
  exact storesWithoutLoad_of_storesAt (fun _ => rfl) rfl (RxUnit.storesAt_byte b s.rx)

theorem exec_rxEnd_storesWithoutLoad {s t : State} (h : exec .rxEnd s = .next t) :
    StoresWithoutLoad .rxEnd s t fun _ => False := by
  cases h
  exact storesWithoutLoad_of_storesAt (fun _ => rfl) rfl (RxUnit.storesAt_endChunk Config.sof s.rx)

theorem exec_rst_storesWithoutLoad {s t : State} (h : exec .rst s = .next t) :
    StoresWithoutLoad .rst s t fun _ => True := by
  cases h
  exact storesWithoutLoad_of_storesAt (fun _ => rfl) rfl (RxUnit.storesAt_cleared s.freeTick s.rx)

/-- A received frame row stores where its chunk does. -/
theorem exec_recv_storesWithoutLoad {i : Instr} {f : FrameFields} {s t : State}
    (hi : formOf i = some (.recv f)) (h : exec i s = .next t) :
    ∃ stored, StoresWithoutLoad i s t stored
      ∧ (s.rx.idle → ∀ a, stored a ↔ a < f.payloadLength.toNat ∧ a < f.payload.length + 2) := by
  obtain ⟨op, hexec⟩ := exec_of_formOf hi
  obtain ⟨stored, hstored, hidle⟩ := RxUnit.storesAt_chunk (f.bytes op) s.rx
  cases (hexec s).symm.trans h
  exact ⟨stored, storesWithoutLoad_of_storesAt (fun rx => hexec { s with rx := rx }) h hstored,
    fun hs a => (hidle hs a).trans (bytes_stored_iff op f a)⟩

/-- Settles O39: by the instruction's unit and kind, each with the addresses its operation stores at; the
clauses that name another kind do not apply. -/
theorem payloadBufferIsNeverLoaded : Obligations.PayloadBufferIsNeverLoaded := by
  intro i s t h
  obtain htx | hrx | rfl := tx_or_rx_or_rst i
  case inl =>
    obtain ⟨hkeep, hload⟩ := exec_tx_storesWithoutLoad htx h
    refine ⟨_, hkeep, hload, fun _ _ => id, ?_, ?_, ?_⟩
    · rintro b rfl; cases htx
    · rintro rfl; cases htx
    · rintro op f rfl; cases (isTx_of_formOf (formOf_frameInstr op (.recv f))).symm.trans htx
  case inr.inl =>
    obtain ⟨b, rfl⟩ | rfl | ⟨f, hf⟩ := isRx_cases hrx
    · obtain ⟨hkeep, hload⟩ := exec_rxByte_storesWithoutLoad h
      refine ⟨_, hkeep, hload, nofun, ?_, nofun, fun op f he => absurd he (ne_frameInstr_of_event rfl op _)⟩
      rintro _ ⟨⟩ a
      exact Iff.rfl
    · obtain ⟨hkeep, hload⟩ := exec_rxEnd_storesWithoutLoad h
      exact ⟨_, hkeep, hload, fun _ _ => id, nofun, nofun,
        fun op f he => absurd he (ne_frameInstr_of_event rfl op _)⟩
    · obtain ⟨stored, ⟨hkeep, hload⟩, hidle⟩ := exec_recv_storesWithoutLoad hf h
      refine ⟨stored, hkeep, hload, ?_, ?_, ?_, ?_⟩
      · rintro (htx | rfl)
        · cases (isTx_of_formOf hf).symm.trans htx
        · cases hf
      · rintro b rfl; cases hf
      · rintro rfl; cases hf
      · rintro op g rfl
        cases (formOf_frameInstr op (.recv g)).symm.trans hf
        exact hidle
  case inr.inr =>
    obtain ⟨hkeep, hload⟩ := exec_rst_storesWithoutLoad h
    refine ⟨_, hkeep, hload, nofun, nofun, fun _ a => ⟨trivial, ?_⟩,
      fun op f he => absurd he (ne_frameInstr_of_event rfl op _)⟩
    cases h
    exact Memory.read_nil a

end Sys2Proof.Machine
end

section
/-! The frames of the format are the chunks that decode, and decoding and encoding agree (30_encoding.md R70,
R73, R77). -/

namespace Sys2Proof.Machine

/-- What a chunk that decodes encodes to again. -/
theorem encode_of_decode_chunk {b : List Byte} {i : Instr} (h : decodeInput (.chunk b) = .ok i) :
    i.wf = true ∧ encodeInstr i = .chunk b := by
  obtain ⟨op, f, rfl, hlen, rfl⟩ := decodeFrame_ok h
  exact ⟨by simpa [wf_frameInstr, FrameForm.wf] using hlen, encodeInstr_frameInstr op (.recv f)⟩

/-- A request decodes to its opcode's row in the send form, and that row encodes to the request. -/
theorem encode_of_decode_request {op : Byte} {p : List Byte} {i : Instr}
    (h : decodeInput (.request op p) = .ok i) : i.wf = true ∧ encodeInstr i = .request op p := by
  cases h
  exact ⟨wf_frameInstr op (.send p), encodeInstr_frameInstr op (.send p)⟩

/-- The length field of a frame's bytes is the number of its payload bytes (R73). -/
theorem le16_of_bytes (op : Byte) (f : FrameFields) :
    le16 ((f.bytes op).getD 6 0) ((f.bytes op).getD 7 0) = f.payloadLength.toNat := by
  rw [FrameFields.bytes_eq]
  exact le16_lo8_hi8 _ f.payloadLength.isLt

/-- A chunk whose length is 10 plus its length field is laid out as a frame (R70, R56). -/
theorem exists_bytes_of_length {b : List Byte} (h10 : 10 ≤ b.length)
    (hlen : b.length = 10 + le16 (b.getD 6 0) (b.getD 7 0)) :
    ∃ op f, f.payload.length = f.payloadLength.toNat ∧ FrameFields.bytes op f = b := by
  match b with
  | hd :: a0 :: a1 :: a2 :: a3 :: op :: lo :: hi :: body =>
    have hsum : body.length + 8 = 10 + le16 lo hi := hlen
    have hbody : body.length = le16 lo hi + 2 := by omega
    have hlt : le16 lo hi < 65536 := le16_lt lo hi
    have htake : (body.take (le16 lo hi)).length = le16 lo hi := by simp [hbody]
    obtain ⟨s, a, htrailer⟩ : ∃ s a, body.drop (le16 lo hi) = [s, a] :=
      List.length_eq_two.mp (by simp [hbody])
    refine ⟨op, ⟨hd, ⟨a0, a1, a2, a3⟩, BitVec.ofNat 16 (le16 lo hi), body.take (le16 lo hi), s, a⟩, ?_, ?_⟩
    · simp [htake, Nat.mod_eq_of_lt hlt]
    · simp [FrameFields.bytes_eq, Nat.mod_eq_of_lt hlt, lo8_le16, hi8_le16, ← htrailer]
  | [] | [_] | [_, _] | [_, _, _] | [_, _, _, _] | [_, _, _, _, _] | [_, _, _, _, _, _]
  | [_, _, _, _, _, _, _] => simp at h10

/-- The exact domain of the frame decoder. -/
theorem decode_chunk_iff (b : List Byte) :
    (∃ i, decodeInput (.chunk b) = .ok i) ↔ 10 ≤ b.length ∧ b.length = 10 + le16 (b.getD 6 0) (b.getD 7 0) := by
  constructor
  · rintro ⟨i, h⟩
    obtain ⟨op, f, -, hlen, rfl⟩ := decodeFrame_ok h
    rw [le16_of_bytes, FrameFields.bytes_length]
    omega
  · rintro ⟨h10, hlen⟩
    obtain ⟨op, f, hf, rfl⟩ := exists_bytes_of_length h10 hlen
    exact ⟨_, decodeFrame_bytes op f hf⟩

/-- Settles O41: the round trip for every instruction, the converse for chunks and requests, and the domain. -/
theorem decodeEncodeAgree : Obligations.DecodeEncodeAgree :=
  ⟨fun _ => decode_encode, fun _ _ => encode_of_decode_chunk, fun _ _ _ => encode_of_decode_request,
    decode_chunk_iff⟩

end Sys2Proof.Machine
end

section
/-! A frame row against the run of its events, in every state (30_encoding.md R76, R85). -/

namespace Sys2Proof.Machine

/-- `RECV` is one operation of the RX unit. -/
theorem receiveBytes_eq_run (b : List Byte) (s : State) : receiveBytes b s = runInstrs (recvEvents b) s :=
  (runInstrs_recv b s).symm

/-- `SEND` of a payload that fits is one operation of the TX unit: in `TX_DATA` its first event is refused, as
the operation is; from `TX_IDLE` both emit the whole frame. -/
theorem sendFrame_eq_run (op : Byte) (p : List Byte) (s : State) (hp : p.length ≤ 65535) :
    sendFrame op p s = runInstrs (sendEvents op p) s := by
  cases hb : s.tx.busy with
  | true =>
    have hstart : exec (.txStart op (BitVec.ofNat 32 p.length)) s = .refused .txStartWhileBusy := if_pos hb
    have hsend : sendFrame op p s = .refused .txStartWhileBusy := if_pos hb
    exact hsend.trans (runInstrs_cons_refused hstart).symm
  | false =>
    have hfits : ¬ p.length > Config.maxPayload := by simpa using hp
    rw [sendFrame, if_neg (by simp [hb]), if_neg hfits, TxUnit.send_all _ _ _ _ hp]
    exact (runInstrs_send op p s hb hp).symm

/-- A row that is the shared operation with its opcode is the run of that opcode's events. -/
theorem isItsEvents_of_passFrame {row : FrameForm → Instr} {op : Byte}
    (hrow : ∀ form s, exec (row form) s = passFrame op form s) : Claims.IsItsEvents row op :=
  fun s => ⟨fun _ => (hrow _ s).trans (receiveBytes_eq_run _ s),
    fun p hp => (hrow _ s).trans (sendFrame_eq_run op p s hp)⟩

/-- Settles O29: each row is the shared operation with its own opcode, by `exec`. -/
theorem frameRowsAreTheirEvents : Obligations.FrameRowsAreTheirEvents := by
  refine ⟨?_, ?_, ?_, ?_, ?_, ?_, ?_, ?_, fun _ => ?_⟩ <;> exact isItsEvents_of_passFrame fun _ _ => rfl

end Sys2Proof.Machine
end

section
/-! An event word read by its number (30_encoding.md R77, R81). -/

namespace Sys2Proof.Machine

/-- The code of an event word, bits 2..0. -/
theorem eventCode_eq_ofNat (w : BitVec 43) : w.extractLsb' 0 3 = BitVec.ofNat 3 w.toNat := rfl

/-- The byte operand of an event word, bits 10..3. -/
theorem eventByte_eq_ofNat (w : BitVec 43) : w.extractLsb' 3 8 = BitVec.ofNat 8 (w.toNat / 8) := by
  rw [BitVec.extractLsb', Nat.shiftRight_eq_div_pow]

/-- The operand `n` of an event word, bits 42..11. -/
theorem eventN_eq_ofNat (w : BitVec 43) : w.extractLsb' 11 32 = BitVec.ofNat 32 (w.toNat / 2048) := by
  rw [BitVec.extractLsb', Nat.shiftRight_eq_div_pow]

/-- Settles O42: the decoder's cases, with the code and the two operands as numbers. -/
theorem eventWordDecoding : Obligations.EventWordDecoding := by
  intro w
  simp only [decodeEvent, eventCode_eq_ofNat, eventByte_eq_ofNat, eventN_eq_ofNat, BitVec.toNat_ofNat]
  exact ⟨fun h => by simp [h], fun h => by simp [h], fun h => by simp [h], fun h => by simp [h],
    fun h => by simp [h], by rintro (h | h | h) <;> simp [h]⟩

end Sys2Proof.Machine
end

section
/-! The opcode map selects a row by the opcode byte, frame byte 5 (30_encoding.md R71, R75). -/

namespace Sys2Proof

/-- The opcode byte a row of the map asks for, at the place of frame byte 5 in its `match`. -/
def OpcodeRow.opcode (row : OpcodeRow) : Byte := row.value.extractLsb' 40 8

/-- The mask of the map's rows is the bits of frame byte 5. -/
theorem opcodeMask_getLsbD :
    ∀ i < 64, (0x0000FF0000000000#64).getLsbD i = decide (40 ≤ i ∧ i < 48) := by decide

/-- The mask of the map's rows keeps frame byte 5 of a header word, in its place. -/
theorem and_opcodeMask (h : BitVec 64) :
    h &&& 0x0000FF0000000000#64 = (h.extractLsb' 40 8).setWidth 64 <<< 40 := by
  apply BitVec.eq_of_getLsbD_eq
  intro i hi
  rw [BitVec.getLsbD_and, opcodeMask_getLsbD i hi]
  by_cases hlow : i < 40
  · simp [hlow]
  · have hplace : 40 + (i - 40) = i := by omega
    have hbyte : i - 40 < 8 ↔ 40 ≤ i ∧ i < 48 := by omega
    simp [hlow, hplace, hbyte, hi, Bool.and_comm]

/-- A byte put at the place of frame byte 5 is read back from there. -/
theorem extractLsb'_setWidth_shiftLeft (op : Byte) : (op.setWidth 64 <<< 40).extractLsb' 40 8 = op := by
  apply BitVec.eq_of_getLsbD_eq
  intro i hi
  have hlt : 40 + i < 64 := by omega
  simp [hi, hlt]

/-- A header word meets a row exactly when its frame byte 5 is the row's opcode (R75). -/
theorem OpcodeRow.matches_iff {row : OpcodeRow} (hrow : row ∈ opcodeMap) (h : BitVec 64) :
    row.matches h = true ↔ h.extractLsb' 40 8 = row.opcode := by
  have hparts : ∀ row ∈ opcodeMap,
      row.mask = 0x0000FF0000000000#64 ∧ row.value = row.opcode.setWidth 64 <<< 40 := by decide
  obtain ⟨hmask, hvalue⟩ := hparts row hrow
  rw [OpcodeRow.matches, beq_iff_eq, hmask, hvalue, and_opcodeMask]
  refine ⟨fun heq => ?_, fun heq => by rw [heq]⟩
  rw [← extractLsb'_setWidth_shiftLeft (h.extractLsb' 40 8), heq, extractLsb'_setWidth_shiftLeft]

/-- Frame byte 5 of a header word is the chunk's (R71). -/
theorem headerWord_byte5 (b : List Byte) : (headerWord b).extractLsb' 40 8 = b.getD 5 0 := by
  unfold headerWord
  iterate 5 rw [BitVec.extractLsb'_append_eq_of_le (by decide)]
  exact BitVec.extractLsb'_append_eq_right

theorem FrameFields.bytes_opcode (op : Byte) (f : FrameFields) : (f.bytes op).getD 5 0 = op := by
  rw [FrameFields.bytes_eq]
  rfl

/-- The rows of the map are the catalog's opcodes in their order. -/
theorem opcodeMap_opcodes : opcodeMap.map OpcodeRow.opcode = Config.catalogOpcodes := by decide

/-- An opcode of the map decodes to the row of that name. -/
theorem mnemonic_of_mem_opcodeMap {row : OpcodeRow} (hrow : row ∈ opcodeMap) (form : FrameForm) :
    (frameInstr row.opcode form).mnemonic = row.mnemonic := by
  fin_cases hrow <;> rfl

/-- An opcode that no row of the map asks for is outside the catalog. -/
theorem not_catalog_of_forall_ne {op : Byte} (h : ∀ row ∈ opcodeMap, op ≠ row.opcode) :
    isCatalogOpcode op = false := by
  rw [isCatalogOpcode, ← opcodeMap_opcodes]
  simpa using fun row hrow => (h row hrow).symm

end Sys2Proof

namespace Sys2Proof.Machine

/-- Settles O43: a chunk that decodes is the bytes of a frame with some opcode; the header word shows that
opcode, and the rows ask for different ones. -/
theorem opcodeMapSelectsRow : Obligations.OpcodeMapSelectsRow := by
  refine ⟨fun b i hdec => ?_, fun h => ?_⟩
  · obtain ⟨op, f, rfl, -, rfl⟩ := decodeFrame_ok hdec
    have hmatch : ∀ row ∈ opcodeMap, row.matches (headerWord (f.bytes op)) = true ↔ op = row.opcode :=
      fun row hrow => by rw [OpcodeRow.matches_iff hrow, headerWord_byte5, FrameFields.bytes_opcode]
    refine ⟨fun row hrow hm => ?_, fun hnone => ?_⟩
    · rw [(hmatch row hrow).mp hm]
      exact mnemonic_of_mem_opcodeMap hrow _
    · have hother : isCatalogOpcode op = false := not_catalog_of_forall_ne fun row hrow heq =>
        Bool.false_ne_true ((hnone row hrow).symm.trans ((hmatch row hrow).mpr heq))
      rw [frameInstr_other op _ hother]
      rfl
  · have hdistinct : opcodeMap.Pairwise fun r q => r.opcode ≠ q.opcode := by decide
    refine hdistinct.imp_of_mem fun {r q} hr hq hne hboth => hne ?_
    rw [← (OpcodeRow.matches_iff hr h).mp hboth.1, ← (OpcodeRow.matches_iff hq h).mp hboth.2]

/-- Settles O44: five words and one chunk, evaluated by the decoder. -/
theorem decodeWordsFromTables : Obligations.DecodeWordsFromTables := by
  unfold Obligations.DecodeWordsFromTables
  decide

end Sys2Proof.Machine
end

section
/-! The checksum as a pair of weighted sums modulo 256: how it acts on a byte in front, on concatenation,
and on a change of one byte (40_checksum.md R104, R105, R111, R112). -/

namespace Sys2Proof.Machine

theorem Cse.eq_iff {c d : Cse} : c = d ↔ c.sum = d.sum ∧ c.add = d.add := by
  cases c
  cases d
  rw [Cse.mk.injEq]

/-- R105 (a): the checksum of a concatenation from the checksums of its parts. -/
theorem compute_append (x y : List Byte) :
    compute (x ++ y) = ⟨(compute x).sum + (compute y).sum,
      (compute x).add + BitVec.ofNat 8 y.length * (compute x).sum + (compute y).add⟩ := by
  rw [← foldl_absorb_compute, foldl_absorb]

/-- A byte in front of `x` weighs 1 in `sum` and the new length in `add`. -/
theorem compute_cons (b : Byte) (x : List Byte) :
    compute (b :: x) = ⟨b + (compute x).sum, BitVec.ofNat 8 (x.length + 1) * b + (compute x).add⟩ := by
  have hb : compute [b] = ⟨b, b⟩ := by simp [compute, csAbsorb]
  have hlen : BitVec.ofNat 8 (x.length + 1) = BitVec.ofNat 8 x.length + 1 := BitVec.ofNat_add ..
  rw [← List.singleton_append, compute_append, hb, hlen, add_mul, one_mul, add_comm (_ * b) b]

@[simp] theorem compute_replicate_zero (k : Nat) : compute (List.replicate k 0#8) = ⟨0, 0⟩ := by
  induction k with
  | zero => rfl
  | succ k ih => simp [List.replicate_succ, compute_cons, ih]

/-- R105: every byte weighs 1 in `sum`. -/
theorem compute_sum_toNat (x : List Byte) : (compute x).sum.toNat = (x.map BitVec.toNat).sum % 256 := by
  induction x with
  | nil => rfl
  | cons b x ih => simp [compute_cons, BitVec.toNat_add, ih]

/-- R105: byte `i` weighs `m - i` in `add`. -/
theorem compute_add_toNat (x : List Byte) :
    (compute x).add.toNat =
      ((List.range x.length).map fun i => (x.length - i) * (x.getD i 0).toNat).sum % 256 := by
  induction x with
  | nil => rfl
  | cons b x ih =>
    have hshift : (List.range (b :: x).length).map
        (fun i => ((b :: x).length - i) * ((b :: x).getD i 0).toNat) =
        (x.length + 1) * b.toNat :: (List.range x.length).map fun i => (x.length - i) * (x.getD i 0).toNat := by
      simp [List.range_succ_eq_map, Function.comp_def]
    rw [hshift, compute_cons, List.sum_cons, BitVec.toNat_add, BitVec.toNat_mul, BitVec.toNat_ofNat, ih]
    simp [Nat.add_mod, Nat.mul_mod]

/-- Changing byte `i` changes `sum` by the difference, and `add` by the difference as often as byte `i` weighs. -/
theorem compute_set (x : List Byte) (i : Nat) (v : Byte) (hi : i < x.length) :
    compute (x.set i v) = ⟨(compute x).sum + (v - x.getD i 0),
      (compute x).add + BitVec.ofNat 8 (x.length - i) * (v - x.getD i 0)⟩ := by
  induction x generalizing i with
  | nil => simp at hi
  | cons b x ih =>
    cases i with
    | zero =>
      simp only [List.set_cons_zero, compute_cons, List.getD_cons_zero, List.length_cons, Nat.sub_zero,
        Cse.mk.injEq]
      constructor <;> ring
    | succ i =>
      simp only [List.set_cons_succ, compute_cons, List.length_set, List.getD_cons_succ, List.length_cons,
        Nat.add_sub_add_right, ih i (Nat.lt_of_succ_lt_succ hi), Cse.mk.injEq]
      constructor <;> ring

/-- A change of one byte changes `sum`. -/
theorem compute_set_ne {x : List Byte} {i : Nat} {v : Byte} (hi : i < x.length) (hv : v ≠ x.getD i 0) :
    compute (x.set i v) ≠ compute x := by
  intro h
  rw [compute_set x i v hi] at h
  have hsum : (compute x).sum + (v - x.getD i 0) = (compute x).sum := congrArg Cse.sum h
  exact hv (sub_eq_zero.mp (add_eq_left.mp hsum))

/-- Settles O17: the weights by induction on the list from its front, the rest from the law of
concatenation. -/
theorem checksumClosedForm : Obligations.ChecksumClosedForm := by
  intro x
  refine ⟨compute_sum_toNat x, compute_add_toNat x, fun y => ?_, fun k => ?_, fun k => ?_⟩
  · rw [compute_append]
    exact ⟨rfl, rfl⟩
  · simp [compute_append]
  · simp [compute_append]

end Sys2Proof.Machine
end

section
/-! What `VERIFY` accepts and which changes it detects (40_checksum.md R107, R111). -/

namespace Sys2Proof.Machine

theorem verify_append_iff (x : List Byte) (s a : Byte) :
    verify (x ++ [s, a]) = true ↔ compute x = ⟨s, a⟩ := by
  rw [verify_append, beq_iff_eq]

/-- Settles O18: a buffer of two bytes or more is a prefix and a trailer; the checksum of zeros is zero. -/
theorem verifyComparesTrailer : Obligations.VerifyComparesTrailer := by
  intro b
  refine ⟨fun h => if_pos h, fun h => ?_, fun h hzero => ?_⟩
  · obtain ⟨x, s, a, rfl⟩ := exists_trailer b h
    rw [verify_append_iff]
    simp [Cse.eq_iff]
  · obtain ⟨x, s, a, rfl⟩ := exists_trailer b h
    have hx : x = List.replicate x.length 0 := List.eq_replicate_of_mem fun v hv => hzero v (by simp [hv])
    rw [verify_append_iff, hx, hzero s (by simp), hzero a (by simp)]
    exact compute_replicate_zero _

/-- `VERIFY` detects a change of one byte before the trailer. -/
theorem verify_set_of_ne {b : List Byte} {i : Nat} {v : Byte} (h : verify b = true) (hi : i < b.length - 2)
    (hv : v ≠ b.getD i 0) : verify (b.set i v) = false := by
  obtain ⟨x, s, a, rfl⟩ := exists_trailer b (by omega)
  have hix : i < x.length := by simpa using hi
  rw [List.getD_append _ _ _ _ hix] at hv
  rw [List.set_append_left _ _ hix, ← Bool.not_eq_true, verify_append_iff, ← (verify_append_iff x s a).mp h]
  exact compute_set_ne hix hv

theorem xor_bit_ne (v : Byte) {k : Nat} (hk : k < 8) : v ^^^ (1#8 <<< k) ≠ v := by
  have hbit : ∀ j < 8, 1#8 <<< j ≠ 0 := by decide
  exact fun h => hbit k hk (by simpa using h)

/-- Settles O19: a change of one byte changes `sum`, a flipped bit is such a change, and a buffer has one
trailer that `VERIFY` accepts. -/
theorem singleByteChangeIsDetected : Obligations.SingleByteChangeIsDetected := by
  refine ⟨fun x i v hi => congrArg Cse.sum (compute_set x i v hi), fun b i v h hi hv => verify_set_of_ne h hi hv,
    fun b i k h hi hk => verify_set_of_ne h hi (xor_bit_ne _ hk), fun x s a s' a' h hne => ?_⟩
  rw [← Bool.not_eq_true, verify_append_iff, (verify_append_iff x s a).mp h]
  simpa [eq_comm] using hne

end Sys2Proof.Machine
end

section
/-! The exchange of two covered bytes: what it changes and when it goes undetected (40_checksum.md R112). -/

namespace Sys2Proof.Machine

/-- The exchange is two changes of one byte, which cancel in `sum` and leave the distance as weight in `add`. -/
theorem compute_exchanged {x : List Byte} {i j : Nat} (hij : i < j) (hj : j < x.length) :
    compute (Claims.exchanged x i j) = ⟨(compute x).sum,
      (compute x).add + BitVec.ofNat 8 (j - i) * (x.getD j 0 - x.getD i 0)⟩ := by
  have hkeep : (x.set i (x.getD j 0)).getD j 0 = x.getD j 0 := by
    simp [List.getD_eq_getElem?_getD, List.getElem?_set_ne (Nat.ne_of_lt hij)]
  have hweight : BitVec.ofNat 8 (x.length - i) = BitVec.ofNat 8 (j - i) + BitVec.ofNat 8 (x.length - j) := by
    rw [← BitVec.ofNat_add]
    congr 1
    omega
  rw [Claims.exchanged, compute_set _ j _ (by simpa using hj), hkeep, compute_set x i _ (hij.trans hj),
    List.length_set, hweight, Cse.mk.injEq]
  constructor <;> ring

/-- The exchange goes undetected exactly when distance times difference is 0 modulo 256. -/
theorem compute_exchanged_eq_iff {x : List Byte} {i j : Nat} (hij : i < j) (hj : j < x.length) :
    compute (Claims.exchanged x i j) = compute x ↔
      BitVec.ofNat 8 (j - i) * (x.getD j 0 - x.getD i 0) = 0 := by
  rw [compute_exchanged hij hj]
  simp [Cse.eq_iff]

theorem ofInt_eq_zero_iff (z : Int) : BitVec.ofInt 8 z = 0 ↔ 256 ∣ z := by
  have h0 : (0 : Byte).toNat = 0 := rfl
  rw [← BitVec.toNat_inj, BitVec.toNat_ofInt]
  omega

/-- A product of bytes is 0 exactly when 256 divides the product of the integers. -/
theorem ofNat_mul_sub_eq_zero_iff (d : Nat) (u v : Byte) :
    BitVec.ofNat 8 d * (v - u) = 0 ↔ (256 : Int) ∣ (d : Int) * (v.toNat - u.toNat) := by
  have hcast : BitVec.ofNat 8 d * (v - u) = BitVec.ofInt 8 ((d : Int) * (v.toNat - u.toNat)) := by
    simp only [sub_eq_add_neg, BitVec.ofInt_mul, BitVec.ofInt_add, BitVec.ofInt_neg, BitVec.ofInt_natCast,
      BitVec.ofNat_toNat, BitVec.setWidth_eq]
  rw [hcast, ofInt_eq_zero_iff]

/-- Settles O20: the exchange leaves `distance * difference` in `add`, which is then read as an integer, for
distance 1, and for `16 * 16`. -/
theorem swapDetectionCondition : Obligations.SwapDetectionCondition := by
  intro x i j hij hj
  refine ⟨by rw [compute_exchanged hij hj], by rw [compute_exchanged hij hj], ?_,
    fun hadj hne => ?_, fun hfar hi0 hj0 => ?_⟩
  · rw [compute_exchanged_eq_iff hij hj, ofNat_mul_sub_eq_zero_iff, Nat.cast_sub hij.le]
  · rw [Ne, compute_exchanged_eq_iff hij hj, show j - i = 1 by omega]
    exact fun h => hne (sub_eq_zero.mp ((one_mul _).symm.trans h)).symm
  · rw [compute_exchanged_eq_iff hij hj, hi0, hj0, hfar, Nat.add_sub_cancel_left]
    decide

end Sys2Proof.Machine
end

section
/-! What `ENCODE` gives: the frame it lays out, its one failure, and the properties of the frame
(41_encoder.md R121, R122, R129). -/

namespace Sys2Proof.Machine

/-- The one failure of `ENCODE` (R122). -/
theorem encodeFrame_tooLong (sof op : Byte) (p : List Byte) (h : 65535 < p.length) :
    encodeFrame sof op p = .error .payloadTooLong := by
  rw [encodeFrame, if_pos (by simpa using h)]

/-- Everything a successful `ENCODE` says of the payload and the frame. -/
theorem encodeFrame_eq_ok {sof op : Byte} {p f : List Byte} (h : encodeFrame sof op p = .ok f) :
    p.length ≤ 65535
      ∧ f = frameHeader sof op p.length ++ p ++ csResult (compute (frameHeader sof op p.length ++ p)) := by
  by_cases hfit : p.length ≤ 65535
  · rw [encodeFrame_ok sof op p hfit] at h
    exact ⟨hfit, (Except.ok.inj h).symm⟩
  · rw [encodeFrame_tooLong sof op p (by omega)] at h
    cases h

/-- Settles O22: by whether the payload fits; the header's bytes are the function's own. -/
theorem encodeLaysOutFrame : Obligations.EncodeLaysOutFrame :=
  fun sof op p => ⟨encodeFrame_tooLong sof op p, encodeFrame_ok sof op p⟩

/-- R129 (a). -/
theorem encodeFrame_length {sof op : Byte} {p f : List Byte} (h : encodeFrame sof op p = .ok f) :
    f.length = 10 + p.length := by
  obtain ⟨-, rfl⟩ := encodeFrame_eq_ok h
  simp only [List.length_append, frameHeader_length, csResult_length]
  omega

/-- R129 (b): the frame's length tells where the payload ends, and the header holds the opcode. -/
theorem encodeFrame_inj {sof op op' : Byte} {p p' f : List Byte} (h : encodeFrame sof op p = .ok f)
    (h' : encodeFrame sof op' p' = .ok f) : op' = op ∧ p' = p := by
  have hlen : p'.length = p.length := by
    have := encodeFrame_length h
    have := encodeFrame_length h'
    omega
  obtain ⟨-, rfl⟩ := encodeFrame_eq_ok h
  obtain ⟨-, heq⟩ := encodeFrame_eq_ok h'
  obtain ⟨hbody, -⟩ := List.append_inj heq (by simp [hlen])
  obtain ⟨hheader, rfl⟩ := List.append_inj hbody rfl
  exact ⟨by simpa [frameHeader] using hheader.symm, rfl⟩

/-- R129 (c): the trailer is the checksum of all before it. -/
theorem verify_encodeFrame {sof op : Byte} {p f : List Byte} (h : encodeFrame sof op p = .ok f) :
    verify f = true := by
  obtain ⟨-, rfl⟩ := encodeFrame_eq_ok h
  exact (verify_append_iff _ _ _).mpr rfl

/-- The marker is the first byte covered: it weighs 1 in `sum` and the number of bytes covered in `add`. -/
theorem compute_frame_marker (sof op : Byte) (n : Nat) (p : List Byte) :
    compute (frameHeader sof op n ++ p) =
      ⟨(compute (frameHeader 0 op n ++ p)).sum + sof,
        (compute (frameHeader 0 op n ++ p)).add + BitVec.ofNat 8 (8 + p.length) * sof⟩ := by
  have hcons : ∀ m : Byte, frameHeader m op n ++ p = m :: ((frameHeader 0 op n).tail ++ p) := fun _ => rfl
  have hlen : ((frameHeader 0 op n).tail ++ p).length + 1 = 8 + p.length := by
    simp only [List.length_append, List.length_tail, frameHeader_length]
    omega
  rw [hcons sof, hcons 0, compute_cons, compute_cons, hlen, Cse.mk.injEq]
  constructor <;> ring

/-- The trailer of a frame. -/
theorem encodeFrame_drop {sof op : Byte} {p f : List Byte} (h : encodeFrame sof op p = .ok f) :
    f.drop (8 + p.length) = csResult (compute (frameHeader sof op p.length ++ p)) := by
  obtain ⟨-, rfl⟩ := encodeFrame_eq_ok h
  exact List.drop_left' (by simp)

/-- The bytes of the trailer, read one by one. -/
theorem encodeFrame_getD_trailer {sof op : Byte} {p f : List Byte} (h : encodeFrame sof op p = .ok f) :
    f.getD (8 + p.length) 0 = (compute (frameHeader sof op p.length ++ p)).sum
      ∧ f.getD (9 + p.length) 0 = (compute (frameHeader sof op p.length ++ p)).add := by
  have hat : ∀ k, f.getD (8 + p.length + k) 0 =
      (csResult (compute (frameHeader sof op p.length ++ p))).getD k 0 := by
    intro k
    rw [← encodeFrame_drop h, List.getD_eq_getElem?_getD, List.getD_eq_getElem?_getD, List.getElem?_drop]
  refine ⟨hat 0, ?_⟩
  rw [show 9 + p.length = 8 + p.length + 1 by omega]
  exact hat 1

/-- Settles O21: (a) to (c) from their lemmas, (d) by the header, (e) by the weight of the marker. -/
theorem encodeFrameProperties : Obligations.EncodeFrameProperties := by
  intro sof op p hp
  have h := encodeFrame_ok sof op p hp
  have h0 := encodeFrame_ok 0 op p hp
  refine ⟨_, h, encodeFrame_length h, fun _ _ => encodeFrame_inj h, verify_encodeFrame h, rfl, _, h0, ?_⟩
  obtain ⟨hsum, hadd⟩ := encodeFrame_getD_trailer h0
  rw [encodeFrame_drop h, hsum, hadd, compute_frame_marker]
  rfl

end Sys2Proof.Machine
end

section
/-! The TX unit's two events where they are legal, and the output of each event's step (41_encoder.md R124,
R125; log 20). -/

namespace Sys2Proof.Machine

/-- `TX_START` in `TX_IDLE` completes (R124). -/
theorem exec_txStart_of_idle {s : State} (hb : s.tx.busy = false) (op : Byte) (n : BitVec 32) :
    exec (.txStart op n) s = .next { s with tx := s.tx.start Config.sof op n } :=
  if_neg (by simp [hb])

/-- `TX_PAYLOAD` in `TX_DATA` completes (R125). -/
theorem exec_txPayload_of_busy {s : State} (hb : s.tx.busy = true) (b : Byte) :
    exec (.txPayload b) s = .next { s with tx := s.tx.payload b } :=
  if_pos hb

/-- The ten bytes of the frame without payload (R124). -/
theorem shortestFrame_eq (sof op : Byte) :
    frameHeader sof op 0 ++ csResult (compute (frameHeader sof op 0)) =
      [sof, 0, 0, 0, 0, op, 0, 0, sof + op, 8 * sof + 3 * op] := by
  rw [compute_frameHeader]
  simp [frameHeader, csResult, lo8, hi8]

/-- Settles O4: by the three ranges of the length, each with all that the event does there. -/
theorem txStartStep : Obligations.TxStartStep := by
  intro s op hb
  refine ⟨?shortest, fun n h1 hfit => ?header, fun n hlong => ?tooLong⟩
  case shortest =>
    rw [exec_txStart_of_idle hb, TxUnit.start_empty, shortestFrame_eq]
    rfl
  case header =>
    have h0 : n ≠ 0 := by
      rintro rfl
      simp at h1
    rw [exec_txStart_of_idle hb, TxUnit.start_data Config.sof op n s.tx h0 hfit, compute_frameHeader]
    rfl
  case tooLong =>
    rw [exec_txStart_of_idle hb, TxUnit.start_tooLong Config.sof op n s.tx hlong]
    rfl

/-- Settles O5: the last byte owed and any other, each with all that the event does there. -/
theorem txPayloadStep : Obligations.TxPayloadStep := by
  intro s b hb
  refine ⟨fun hlast => ?_, fun hmore => ?_⟩
  · rw [exec_txPayload_of_busy hb, TxUnit.payload_last b s.tx hlast]
    rfl
  · have h1 : s.tx.rem ≠ 1 := by
      intro h
      simp [h] at hmore
    have hrem : (s.tx.rem - 1).toNat = s.tx.rem.toNat - 1 := by bv_omega
    refine ⟨_, exec_txPayload_of_busy hb b, rfl, rfl, rfl, ?_⟩
    rw [TxUnit.payload_more b s.tx h1]
    exact ⟨rfl, hb, rfl, hrem, rfl, rfl⟩

/-- The output of a step whose emitted bytes are known. -/
theorem outputOf_of_out {s t : State} {e : List Byte} (i : Instr) (h : t.tx.out = s.tx.out ++ e) :
    outputOf i s t = ⟨statusOf i t, e⟩ := by
  rw [outputOf, h, List.drop_left]

/-- The output of a step that leaves `TX_OUT`. -/
theorem outputOf_of_out_eq {s t : State} (i : Instr) (h : t.tx.out = s.tx.out) :
    outputOf i s t = ⟨statusOf i t, []⟩ :=
  outputOf_of_out i (by rw [h, List.append_nil])

/-- The bytes a `TX_START` emits, by its length (R124). -/
theorem TxUnit.start_out (sof op : Byte) (n : BitVec 32) (tx : TxUnit) :
    (tx.start sof op n).out = tx.out ++
      if 65535 < n.toNat then []
      else if n = 0 then [sof, 0, 0, 0, 0, op, 0, 0, sof + op, 8 * sof + 3 * op]
      else frameHeader sof op n.toNat := by
  obtain rfl | ⟨h0, -, hfit⟩ | hlong := TxUnit.length_cases n
  · rw [TxUnit.start_empty, shortestFrame_eq]
    rfl
  · rw [TxUnit.start_data sof op n tx h0 hfit, if_neg (by omega), if_neg h0]
  · rw [TxUnit.start_tooLong sof op n tx hlong, if_pos hlong, List.append_nil, TxUnit.reportTooLong_out]

/-- The bytes a `TX_PAYLOAD` emits (R125). -/
theorem TxUnit.payload_out (b : Byte) (tx : TxUnit) :
    (tx.payload b).out = tx.out ++
      if tx.rem = 1 then [b, tx.cse.sum + b, tx.cse.add + (tx.cse.sum + b)] else [b] := by
  by_cases h1 : tx.rem = 1
  · rw [TxUnit.payload_last b tx h1, if_pos h1]
    rfl
  · rw [TxUnit.payload_more b tx h1, if_neg h1]

/-- Settles O38: the bytes each event emits, and the status it leaves. -/
theorem eventStepOutputs : Obligations.EventStepOutputs := by
  intro s t
  refine ⟨?txStart, ?txPayload, ?rxByte, ?rxEnd, ?rst⟩
  case txStart =>
    intro op n h
    obtain ⟨-, rfl⟩ := exec_txStart_next h
    rw [outputOf_of_out _ (TxUnit.start_out Config.sof op n s.tx), statusOf, TxUnit.start_status]
    by_cases hlong : 65535 < n.toNat
    · rw [if_neg (by omega), if_pos hlong, if_pos hlong]
    · rw [if_pos (by omega), if_neg hlong, if_neg hlong]
      split <;> rfl
  case txPayload =>
    intro b h
    obtain ⟨-, rfl⟩ := exec_txPayload_next h
    exact outputOf_of_out _ (TxUnit.payload_out b s.tx)
  case rxByte => exact fun b h => outputOf_of_out_eq _ (exec_keeps_out rfl h)
  case rxEnd =>
    intro h
    rw [outputOf_of_out_eq _ (exec_keeps_out rfl h)]
    cases h
    rfl
  case rst => exact fun h => outputOf_of_out_eq _ (exec_keeps_out rfl h)

end Sys2Proof.Machine
end

section
/-! Sending a whole payload: the events of a `SEND` between events of the RX unit, and where a request to
send is turned away (41_encoder.md R122, R127, R128). -/

namespace Sys2Proof.Machine

/-- Settles O8: the run's TX part is the `SEND`, which completes with the frame, so the run completes and its
TX unit ends alike; a length that does not fit is told by `TX_START` alone. -/
theorem txUnitAgreesWithEncode : Obligations.TxUnitAgreesWithEncode := by
  intro s op p hb
  refine ⟨fun hp es hes hfilter => ?fits, fun hlong hword => ?tooLong⟩
  case fits =>
    have hsend := runInstrs_send op p s hb hp
    rw [← hfilter] at hsend
    obtain ⟨t, ht⟩ := runInstrs_completes_of_filter_isTx hes rfl hsend
    obtain ⟨u, hu, htx⟩ := runInstrs_filter_isTx hes ht
    cases hsend.symm.trans hu
    refine ⟨t, _, ht, encodeFrame_ok Config.sof op p hp, ?_⟩
    rw [← htx]
    exact ⟨rfl, rfl, rfl, rfl, rfl⟩
  case tooLong =>
    have hn : (BitVec.ofNat 32 p.length).toNat = p.length :=
      (BitVec.toNat_ofNat ..).trans (Nat.mod_eq_of_lt hword)
    refine ⟨encodeFrame_tooLong Config.sof op p hlong, _, exec_txStart_of_idle hb op _, ?_⟩
    rw [TxUnit.start_tooLong Config.sof op _ s.tx (by omega)]
    exact ⟨rfl, rfl, hb⟩

/-- A request to send in `TX_DATA` (R127). -/
theorem sendFrame_of_busy {s : State} (hb : s.tx.busy = true) (op : Byte) (p : List Byte) :
    sendFrame op p s = .refused .txStartWhileBusy :=
  if_pos hb

/-- A request to send that is too long (R122, log 19). -/
theorem sendFrame_tooLong {s : State} (hb : s.tx.busy = false) (op : Byte) {p : List Byte}
    (h : 65535 < p.length) : sendFrame op p s = .next { s with tx := s.tx.reportTooLong } := by
  rw [sendFrame, if_neg (by simp [hb]), if_pos h]

/-- A row that is the shared operation with its opcode is turned away where that operation is. -/
theorem sendTurnedAway_of_passFrame {row : FrameForm → Instr} {op : Byte}
    (hrow : ∀ form s, exec (row form) s = passFrame op form s) : Claims.SendTurnedAway row :=
  fun s p => ⟨fun hb => (hrow _ s).trans (sendFrame_of_busy hb op p),
    fun hb hlong => (hrow _ s).trans (sendFrame_tooLong hb op hlong)⟩

/-- What holds of the shared operation with any opcode holds of each of the nine rows (R76). -/
theorem allFrameRows_of_passFrame {P : (FrameForm → Instr) → Byte → Prop}
    (h : ∀ row op, (∀ form s, exec (row form) s = passFrame op form s) → P row op) : Claims.AllFrameRows P :=
  ⟨h _ _ fun _ _ => rfl, h _ _ fun _ _ => rfl, h _ _ fun _ _ => rfl, h _ _ fun _ _ => rfl,
    h _ _ fun _ _ => rfl, h _ _ fun _ _ => rfl, h _ _ fun _ _ => rfl, h _ _ fun _ _ => rfl,
    fun _ => h _ _ fun _ _ => rfl⟩

/-- Settles O28: each row is the shared operation with its own opcode. -/
theorem frameRowsSendTurnedAway : Obligations.FrameRowsSendTurnedAway :=
  allFrameRows_of_passFrame fun _ _ => sendTurnedAway_of_passFrame

end Sys2Proof.Machine
end

section
/-! What `DECODE` and `RECEIVE` answer: `DECODE`'s tests in their order, the fields of a chunk laid out as a
frame, and the first outcome of `RECEIVE` that applies (42_decoder.md R141 to R144, 60_exceptions.md R203). -/

namespace Sys2Proof.Machine

/-- What `DECODE` reads from a frame of the format. -/
def viewOf (op : Byte) (f : FrameFields) : FrameView :=
  { address := f.address, opcode := op, payloadLength := f.payloadLength.toNat, payload := f.payload
    checksumPair := (f.trailerSum, f.trailerAdd) }

/-- The first test of `DECODE` (R141). -/
theorem decodeChunk_short (sof : Byte) {b : List Byte} (h : b.length < 10) :
    decodeChunk sof b = .error .frameTooShort :=
  if_pos h

/-- The second test of `DECODE` (R141). -/
theorem decodeChunk_badHeader {sof : Byte} {b : List Byte} (h10 : 10 ≤ b.length) (hsof : b.getD 0 0 ≠ sof) :
    decodeChunk sof b = .error .badHeader :=
  (if_neg (Nat.not_lt.mpr h10)).trans (if_pos hsof)

/-- The third test of `DECODE` (R142, decision D5). -/
theorem decodeChunk_lengthMismatch {sof : Byte} {b : List Byte} (h10 : 10 ≤ b.length) (hsof : b.getD 0 0 = sof)
    (hlen : b.length ≠ 10 + le16 (b.getD 6 0) (b.getD 7 0)) :
    decodeChunk sof b = .error .lengthMismatch :=
  (if_neg (Nat.not_lt.mpr h10)).trans ((if_neg (not_not.mpr hsof)).trans (if_pos hlen))

/-- Behind the header of a frame come the payload and the trailer (R70). -/
theorem bytes_drop_header (op : Byte) (f : FrameFields) :
    (f.bytes op).drop 8 = f.payload ++ [f.trailerSum, f.trailerAdd] := by
  rw [FrameFields.bytes_eq]
  rfl

/-- The trailer of a frame, byte by byte, behind as many payload bytes as its length field says. -/
theorem bytes_getD_trailer (op : Byte) {f : FrameFields} (hlen : f.payload.length = f.payloadLength.toNat)
    (k : Nat) :
    (f.bytes op).getD (8 + (f.payloadLength.toNat + k)) 0 = [f.trailerSum, f.trailerAdd].getD k 0 := by
  rw [List.getD_eq_getElem?_getD, ← List.getElem?_drop, bytes_drop_header, ← hlen,
    List.getElem?_append_right (Nat.le_add_right ..), Nat.add_sub_cancel_left, List.getD_eq_getElem?_getD]

/-- `DECODE` of a frame that begins with the marker passes every test and reads the frame's fields (R143). -/
theorem decodeChunk_bytes (op : Byte) {f : FrameFields} (hlen : f.payload.length = f.payloadLength.toNat) :
    decodeChunk f.header (f.bytes op) = .ok (viewOf op f) := by
  have hlength : (f.bytes op).length = 10 + f.payloadLength.toNat := by rw [FrameFields.bytes_length, hlen]
  have hheader : (f.bytes op).getD 0 0 = f.header := by rw [FrameFields.bytes_eq]; rfl
  have haddress : (⟨(f.bytes op).getD 1 0, (f.bytes op).getD 2 0, (f.bytes op).getD 3 0,
      (f.bytes op).getD 4 0⟩ : Address) = f.address := by rw [FrameFields.bytes_eq]; rfl
  have hpayload : slice (f.bytes op) 8 (8 + f.payloadLength.toNat) = f.payload := by
    rw [slice, bytes_drop_header, Nat.add_sub_cancel_left, ← hlen, List.take_left]
  have hsum : (f.bytes op).getD (8 + f.payloadLength.toNat) 0 = f.trailerSum := bytes_getD_trailer op hlen 0
  have hadd : (f.bytes op).getD (9 + f.payloadLength.toNat) 0 = f.trailerAdd := by
    rw [show 9 + f.payloadLength.toNat = 8 + (f.payloadLength.toNat + 1) by omega]
    exact bytes_getD_trailer op hlen 1
  simp only [decodeChunk, le16_of_bytes, haddress, FrameFields.bytes_opcode, hpayload, hsum, hadd]
  rw [if_neg (by simp [hlength]), if_neg (not_not.mpr hheader), if_neg (not_not.mpr hlength)]
  rfl

/-- Settles O23: the tests by their lemmas; a chunk that passes them is laid out as a frame, whose fields
`DECODE` reads. -/
theorem decodeTestsInOrder : Obligations.DecodeTestsInOrder := by
  intro sof b
  refine ⟨decodeChunk_short sof, decodeChunk_badHeader, decodeChunk_lengthMismatch, fun hsof hlen => ?_⟩
  obtain ⟨op, f, hf, rfl⟩ := exists_bytes_of_length (by omega) hlen
  have hheader : f.header = sof := by rw [← hsof, FrameFields.bytes_eq]; rfl
  have haddress : f.address.toList = ((f.bytes op).drop 1).take 4 := by rw [FrameFields.bytes_eq]; rfl
  exact ⟨viewOf op f, hheader ▸ decodeChunk_bytes op hf, haddress, (FrameFields.bytes_opcode op f).symm,
    (le16_of_bytes op f).symm, bytes_drop_header op f, hf⟩

/-- The decode status of a chunk: the first test that fails. -/
theorem decodeCode_eq (sof : Byte) (b : List Byte) :
    decodeCode sof b =
      if b.length < 10 then .frameTooShort
      else if b.getD 0 0 ≠ sof then .badHeader
      else if b.length ≠ 10 + le16 (b.getD 6 0) (b.getD 7 0) then .lengthMismatch
      else .ok := by
  unfold decodeCode decodeChunk
  dsimp only [Config.msgMinLength_eq]
  split_ifs <;> rfl

/-- `RECEIVE` hands on exactly the frames that `DECODE` gives and `VERIFY` accepts (R144). -/
theorem receive_eq_ok_iff {sof : Byte} {b : List Byte} {f : FrameView} :
    receive sof b = .ok f ↔ decodeChunk sof b = .ok f ∧ verify b = true := by
  unfold receive
  cases decodeChunk sof b with
  | error e => simp
  | ok g => by_cases hv : verify b = true <;> simp [hv]

/-- Settles O24: a decode error is `RECEIVE`'s too, and behind the tests `VERIFY` decides. -/
theorem receiveOutcomePriority : Obligations.ReceiveOutcomePriority := by
  intro sof b
  refine ⟨?_, fun f => receive_eq_ok_iff⟩
  rw [receiveCode_eq, decodeCode_eq]
  simp only [apply_ite (rxStatusOf · (verify b))]
  rfl

end Sys2Proof.Machine
end

section
/-! The round-trip law: what `ENCODE` lays out is a frame of the format, which `RECEIVE` reads back, and a
`LOOP` takes it through both units (42_decoder.md R156, 30_encoding.md R85). -/

namespace Sys2Proof.Machine

/-- The fields of the frame that `ENCODE` lays out (41_encoder.md R121). -/
def encodedFields (sof op : Byte) (p : List Byte) : FrameFields :=
  { header := sof, address := ⟨0, 0, 0, 0⟩, payloadLength := BitVec.ofNat 16 p.length, payload := p
    trailerSum := (compute (frameHeader sof op p.length ++ p)).sum
    trailerAdd := (compute (frameHeader sof op p.length ++ p)).add }

theorem encodedFields_payloadLength (sof op : Byte) {p : List Byte} (hp : p.length ≤ 65535) :
    (encodedFields sof op p).payloadLength.toNat = p.length :=
  (BitVec.toNat_ofNat ..).trans (Nat.mod_eq_of_lt (by omega))

/-- `ENCODE` writes the bytes of these fields. -/
theorem encodeFrame_eq_bytes (sof op : Byte) {p : List Byte} (hp : p.length ≤ 65535) :
    encodeFrame sof op p = .ok ((encodedFields sof op p).bytes op) := by
  rw [encodeFrame_ok sof op p hp, FrameFields.bytes_eq, encodedFields_payloadLength sof op hp,
    List.append_assoc]
  rfl

/-- What `RECEIVE` reads back from the frame of `ENCODE`. -/
theorem receive_encodedFields (sof op : Byte) {p : List Byte} (hp : p.length ≤ 65535) :
    receive sof ((encodedFields sof op p).bytes op) = .ok (viewOf op (encodedFields sof op p)) :=
  receive_eq_ok_iff.mpr
    ⟨decodeChunk_bytes op (encodedFields_payloadLength sof op hp).symm,
      verify_encodeFrame (encodeFrame_eq_bytes sof op hp)⟩

/-- A `LOOP` from `TX_IDLE` receives exactly the frame it sends. -/
theorem loopBack_of_idle {op : Byte} {p frame : List Byte} {s : State} (hb : s.tx.busy = false)
    (h : encodeFrame Config.sof op p = .ok frame) :
    loopBack op p s =
      .next { s with tx := .idleWith (s.tx.out ++ frame), rx := s.rx.chunk Config.sof frame } := by
  obtain ⟨hp, rfl⟩ := encodeFrame_eq_ok h
  rw [loopBack, runInstrs_send op p s hb hp]
  simp only [TxUnit.idleWith, List.drop_left, runInstrs_recv]

/-- Settles O25: `RECEIVE` reads back the fields that `ENCODE` wrote, and the RX unit shows what `RECEIVE`
says of the frame that the TX unit emitted. -/
theorem roundTripLaw : Obligations.RoundTripLaw := by
  intro op p hp
  have hlen (sof : Byte) := encodedFields_payloadLength sof op hp
  refine ⟨fun sof => ?functions, fun s hbusy hidle => ?loop⟩
  case functions =>
    have hencode := encodeFrame_eq_bytes sof op hp
    refine ⟨_, (encodedFields sof op p).trailerSum, (encodedFields sof op p).trailerAdd, hencode,
      verify_encodeFrame hencode, ?_⟩
    rw [receive_encodedFields sof op hp, viewOf, hlen sof]
    rfl
  case loop =>
    have hreceive := receive_encodedFields Config.sof op hp
    have hshows := RxUnit.shows_chunk ((encodedFields Config.sof op p).bytes op) s.rx hidle
    obtain ⟨haddr, hop, hrxlen, -, hpay⟩ := hshows.view _ hreceive
    replace hrxlen := hrxlen.trans (hlen Config.sof)
    exact ⟨_, loopBack_of_idle hbusy (encodeFrame_eq_bytes Config.sof op hp), hshows.valid,
      hshows.status.trans (receiveCode_of_receive_ok hreceive), hop, hrxlen, haddr,
      fun j hj => hpay j (hj.trans_eq hrxlen.symm)⟩

end Sys2Proof.Machine
end

section
/-! The RX unit's two events, register by register (42_decoder.md R146, R148, R149; 40_checksum.md R109,
R110). -/

namespace Sys2Proof.Machine

/-- Where the byte of offset `p` is stored (R146). -/
theorem RxUnit.storeAddress_eq_some_iff {p a : Nat} {rx : RxUnit} :
    rx.storeAddress p = some a ↔ 8 ≤ p ∧ p - 8 < rx.len ∧ a = p - 8 := by
  unfold RxUnit.storeAddress
  split
  next h => simp [h, eq_comm]
  next h => simp only [reduceCtorEq, false_iff]; exact fun hc => h ⟨hc.1, hc.2.1⟩

/-- The address bytes after a received byte: the one at its offset replaced, or none (R148). -/
theorem RxUnit.byte_addr_toList (b : Byte) (rx : RxUnit) :
    (rx.byte b).addr.toList =
      if 1 ≤ rx.pos.toNat ∧ rx.pos.toNat ≤ 4 then rx.addr.toList.set (rx.pos.toNat - 1) b
      else rx.addr.toList := by
  rw [RxUnit.byte_addr]
  split
  · exact setAddr_toList _ _ _ (by omega)
  · rfl

/-- Settles O9: each register's own lemma, and the one byte of `PBUF` that the offset names. -/
theorem receivedByteStep : Obligations.ReceivedByteStep := by
  intro s b
  have hpos : (s.rx.byte b).pos.toNat = min (s.rx.pos.toNat + 1) 131071 := by
    rw [RxUnit.byte_pos, nextPos_toNat]
  have hpbuf (a : Nat) : (s.rx.byte b).pbuf.read a =
      if s.rx.storeAddress s.rx.pos.toNat = some a then some b else s.rx.pbuf.read a := by
    simp only [RxUnit.byte_pbuf_read, RxUnit.storeAddress_eq_some_iff]
  exact ⟨_, rfl, rfl, rfl, rfl, hpos, RxUnit.byte_d0 b s.rx, RxUnit.byte_d1 b s.rx, RxUnit.byte_cse b s.rx,
    RxUnit.byte_valid b s.rx, RxUnit.byte_dstat b s.rx, RxUnit.byte_csok b s.rx, RxUnit.byte_hdr b s.rx,
    RxUnit.byte_addr_toList b s.rx, RxUnit.byte_opcode b s.rx, RxUnit.byte_lenLo b s.rx,
    RxUnit.byte_lenHi b s.rx, hpbuf, fun _ => RxUnit.storeAddress_eq_some_iff⟩

/-- The code of the decode status at the end of a chunk: the first test that applies (R149). -/
theorem RxUnit.decodeStatus_code (sof : Byte) (rx : RxUnit) :
    (rx.decodeStatus sof).code =
      if rx.pos.toNat < 10 then 1
      else if rx.hdr ≠ sof then 2
      else if rx.pos.toNat ≠ 10 + rx.len then 3
      else 0 := by
  unfold RxUnit.decodeStatus
  dsimp only [Config.msgMinLength_eq]
  split_ifs <;> rfl

/-- When the verifier accepts at the end of a chunk (R110). -/
theorem RxUnit.vEnd_iff (rx : RxUnit) :
    rx.vEnd = true ↔ 2 ≤ rx.pos.toNat ∧ rx.cse.sum = rx.d0 ∧ rx.cse.add = rx.d1 := by
  unfold RxUnit.vEnd
  split
  next h => simp [h]
  next h => simp [Nat.not_lt.mp h]

/-- The code of the receive status from the codes of its two parts (R203). -/
theorem rxStatusOf_code (d : DecodeStatus) (c : Bool) :
    (rxStatusOf d c).code = if d.code ≠ 0 then d.code.setWidth 3 else if c = true then 0 else 4 := by
  cases d with
  | ok => cases c <;> rfl
  | frameTooShort | badHeader | lengthMismatch => rfl

/-- Settles O10: what `RX_END` records is the decode status, the verifier's answer, and their priority. -/
theorem chunkEndStep : Obligations.ChunkEndStep := fun s =>
  ⟨_, rfl, rfl, rfl, rfl, s.rx.decodeStatus_code Config.sof, s.rx.vEnd_iff, rfl, rfl, rfl, rfl, rfl, rfl,
    rfl, rfl, rfl, rfl, rfl, rxStatusOf_code _ _⟩

end Sys2Proof.Machine
end

section
/-! Whole chunks: after any boundary, after any other chunk, too short and too long (42_decoder.md R151,
R153, R154, R155). -/

namespace Sys2Proof.Machine

/-- Settles O13: the boundary leaves the unit between chunks; the run's RX part is the `RECV`, and the RX unit
ends alike. -/
theorem rxUnitAgreesWithReceive : Obligations.RxUnitAgreesWithReceive := by
  intro s e b he
  obtain ⟨m, hm, hidle⟩ := exec_boundary_idle he s
  refine ⟨⟨_, (runInstrs_cons_next hm).trans (runInstrs_recv b m)⟩, fun es hes hfilter t ht => ?_⟩
  rw [runInstrs_cons_next hm] at ht
  obtain ⟨v, hv, hrx⟩ := runInstrs_filter_isRx hes ht
  rw [hfilter, runInstrs_recv] at hv
  cases hv
  rw [← hrx]
  exact RxUnit.shows_chunk b m.rx hidle

/-- Settles O14: any `RX_END` leaves the unit between chunks. -/
theorem noChunkSpoilsTheNext : Obligations.NoChunkSpoilsTheNext := by
  intro s b
  have hshows := RxUnit.shows_chunk b _ (RxUnit.idle_endChunk Config.sof s.rx)
  exact ⟨_, _, rfl, rfl, rfl, runInstrs_recv b _, hshows.valid, hshows.dstat, hshows.csok, hshows.status⟩

/-- Settles O15: both are chunks below ten bytes, and `VERIFY` accepts none below two. -/
theorem emptyAndShortChunks : Obligations.EmptyAndShortChunks := by
  intro s hidle
  have hstatus {b : List Byte} (h : b.length < 10) : decodeCode Config.sof b = .frameTooShort := by
    rw [decodeCode_eq, if_pos h]
  have hverify {b : List Byte} (h : b.length < 2) : verify b = false := if_pos h
  refine ⟨?empty, fun b h1 h9 => ?short⟩
  case empty =>
    have hshows := RxUnit.shows_chunk [] s.rx hidle
    exact ⟨_, rfl, hshows.dstat.trans (hstatus (by simp)), hshows.csok, hshows.valid⟩
  case short =>
    have hshows := RxUnit.shows_chunk b s.rx hidle
    exact ⟨_, runInstrs_recv b s, hshows.dstat.trans (hstatus (by omega)), hshows.csok,
      fun hone => hshows.csok.trans (hverify (by omega))⟩

/-- No frame is longer than 65545 bytes, so such a chunk fails by its first byte or its length (R154). -/
theorem decodeCode_overlong (sof : Byte) {b : List Byte} (h : 65545 < b.length) :
    decodeCode sof b = if b.getD 0 0 ≠ sof then .badHeader else .lengthMismatch := by
  have hlt := le16_lt (b.getD 6 0) (b.getD 7 0)
  rw [decodeCode_eq, if_neg (by omega), if_pos (show b.length ≠ 10 + _ by omega)]

/-- A whole chunk stores nothing at its length field or above (R146). -/
theorem RxUnit.chunk_pbuf_read_of_len_le {b : List Byte} {rx : RxUnit} (h : rx.idle) (h8 : 8 ≤ b.length)
    {a : Nat} (ha : (rx.chunk Config.sof b).len ≤ a) :
    (rx.chunk Config.sof b).pbuf.read a = rx.pbuf.read a := by
  obtain ⟨hlo, hhi⟩ := RxUnit.chunk_lenBytes Config.sof b rx h h8
  rw [RxUnit.len, hlo, hhi] at ha
  rw [RxUnit.chunk_pbuf_read b rx h, if_neg (by omega)]

/-- Settles O16: the counter is what the unit holds of the bytes, the results are the functions', and the
length field bounds what is stored. -/
theorem overlongChunks : Obligations.OverlongChunks := by
  intro s b hidle hlong
  have hholds := RxUnit.holds_bytes_of_idle b s.rx hidle
  have hshows := RxUnit.shows_chunk b s.rx hidle
  exact ⟨_, _, runInstrs_rxBytes b s, hholds.pos, rfl, hshows.dstat.trans (decodeCode_overlong Config.sof hlong),
    hshows.csok, fun _ => RxUnit.chunk_pbuf_read_of_len_le hidle (by omega)⟩

end Sys2Proof.Machine
end

section
/-! Every row of the Command Catalog in its two directions (43_command_catalog.md R170 to R179). -/

namespace Sys2Proof.Machine

/-- A row that is the shared operation with its opcode sends that opcode's frame: from `TX_IDLE` it is the run of
the `SEND`. -/
theorem sendsFrame_of_passFrame {row : FrameForm → Instr} {op : Byte}
    (hrow : ∀ form s, exec (row form) s = passFrame op form s) : Claims.SendsFrame row op :=
  fun s p hb hp => ⟨_, encodeFrame_ok Config.sof op p hp,
    (hrow _ s).trans ((sendFrame_eq_run op p s hp).trans (runInstrs_send op p s hb hp))⟩

/-- Settles O27: each row is the shared operation with its own opcode. -/
theorem frameRowsSend : Obligations.FrameRowsSend :=
  allFrameRows_of_passFrame fun _ _ => sendsFrame_of_passFrame

/-- The trailer bytes of a frame come behind its payload, whatever the length field says (R70). -/
theorem bytes_getElem?_trailer (op : Byte) (f : FrameFields) (k : Nat) :
    (f.bytes op)[8 + (f.payload.length + k)]? = [f.trailerSum, f.trailerAdd][k]? := by
  rw [← List.getElem?_drop, bytes_drop_header, List.getElem?_append_right (Nat.le_add_right ..),
    Nat.add_sub_cancel_left]

/-- After a chunk's eight header bytes, each stands in the register of its offset (R56). -/
theorem RxUnit.Holds.header_registers {hd a0 a1 a2 a3 op lo hi : Byte} {body : List Byte} {rx : RxUnit}
    (h : rx.Holds (hd :: a0 :: a1 :: a2 :: a3 :: op :: lo :: hi :: body)) :
    rx.hdr = hd ∧ rx.addr = ⟨a0, a1, a2, a3⟩ ∧ rx.opcode = op ∧ rx.lenLo = lo ∧ rx.lenHi = hi := by
  have hlength : 8 ≤ (hd :: a0 :: a1 :: a2 :: a3 :: op :: lo :: hi :: body).length := Nat.le_add_left ..
  have hb0 : some a0 = some rx.addr.b0 := h.addr 0 (by omega) (by omega)
  have hb1 : some a1 = some rx.addr.b1 := h.addr 1 (by omega) (by omega)
  have hb2 : some a2 = some rx.addr.b2 := h.addr 2 (by omega) (by omega)
  have hb3 : some a3 = some rx.addr.b3 := h.addr 3 (by omega) (by omega)
  cases hb0; cases hb1; cases hb2; cases hb3
  exact ⟨(Option.some.inj (h.hdr (by omega))).symm, rfl, (Option.some.inj (h.opcode (by omega))).symm,
    (Option.some.inj (h.lenLo (by omega))).symm, (Option.some.inj (h.lenHi hlength)).symm⟩

/-- After the bytes of a frame the field registers hold the frame's fields, and the delay line its trailer (R56,
R109). -/
theorem RxUnit.Holds.frame_fields {op : Byte} {f : FrameFields} {rx : RxUnit} (h : rx.Holds (f.bytes op)) :
    rx.hdr = f.header ∧ rx.addr = f.address ∧ rx.opcode = op ∧ rx.len = f.payloadLength.toNat
      ∧ rx.d0 = f.trailerSum ∧ rx.d1 = f.trailerAdd := by
  have hlength := FrameFields.bytes_length op f
  have hd0 : some f.trailerSum = some rx.d0 := by
    rw [← h.d0 (by omega), show (f.bytes op).length - 2 = 8 + (f.payload.length + 0) by omega]
    exact (bytes_getElem?_trailer op f 0).symm
  have hd1 : some f.trailerAdd = some rx.d1 := by
    rw [← h.d1 (by omega), show (f.bytes op).length - 1 = 8 + (f.payload.length + 1) by omega]
    exact (bytes_getElem?_trailer op f 1).symm
  rw [FrameFields.bytes_eq] at h
  obtain ⟨hhdr, haddr, hop, hlo, hhi⟩ := h.header_registers
  have hlen : rx.len = f.payloadLength.toNat := by
    rw [RxUnit.len, hlo, hhi, le16_lo8_hi8 _ f.payloadLength.isLt]
  exact ⟨hhdr, haddr, hop, hlen, (Option.some.inj hd0).symm, (Option.some.inj hd1).symm⟩

/-- The status of a frame whose length field counts its payload: only the marker and the trailer are left to
test (R144). -/
theorem receiveCode_bytes (sof op : Byte) {f : FrameFields} (hlen : f.payload.length = f.payloadLength.toNat) :
    receiveCode sof (f.bytes op) =
      if f.header ≠ sof then .badHeader
      else if verify (f.bytes op) = true then .ok else .checksumMismatch := by
  have hlength : (f.bytes op).length = 10 + le16 ((f.bytes op).getD 6 0) ((f.bytes op).getD 7 0) := by
    rw [FrameFields.bytes_length, le16_of_bytes, hlen]
  have hheader : (f.bytes op).getD 0 0 = f.header := by rw [FrameFields.bytes_eq]; rfl
  obtain ⟨hcode, -⟩ := receiveOutcomePriority sof (f.bytes op)
  rw [hcode, if_neg (by omega), hheader]
  congr 1
  exact if_neg (not_not.mpr hlength)

/-- Every byte of `PBUF` after a frame received from between chunks (R146). -/
theorem RxUnit.chunk_bytes_pbuf_read (op : Byte) (f : FrameFields) {rx : RxUnit} (h : rx.idle) (a : Nat) :
    (rx.chunk Config.sof (f.bytes op)).pbuf.read a =
      if a < f.payloadLength.toNat ∧ a < f.payload.length + 2
      then (f.payload ++ [f.trailerSum, f.trailerAdd])[a]? else rx.pbuf.read a := by
  rw [RxUnit.chunk_pbuf_read _ rx h, ← bytes_drop_header op f, List.getElem?_drop]
  simp only [bytes_stored_iff]

/-- A row that is the shared operation with its opcode receives that opcode's frame: it is the whole chunk on the
RX unit. -/
theorem receivesFrame_of_passFrame {row : FrameForm → Instr} {op : Byte}
    (hrow : ∀ form s, exec (row form) s = passFrame op form s) : Claims.ReceivesFrame row op := by
  intro s f hidle
  have hshows := RxUnit.shows_chunk (f.bytes op) s.rx hidle
  obtain ⟨hhdr, haddr, hop, hlen, hd0, hd1⟩ := (RxUnit.holds_bytes_of_idle (f.bytes op) s.rx hidle).frame_fields
  exact ⟨_, hrow _ s, rfl, rfl, rfl, hshows, RxUnit.idle_endChunk Config.sof _, hhdr, haddr, hop, hlen, hd0, hd1,
    fun hcount => hshows.status.trans (receiveCode_bytes Config.sof op hcount),
    RxUnit.chunk_bytes_pbuf_read op f hidle⟩

/-- Settles O26: each row is the shared operation with its own opcode. -/
theorem frameRowsReceive : Obligations.FrameRowsReceive :=
  allFrameRows_of_passFrame fun _ _ => receivesFrame_of_passFrame

end Sys2Proof.Machine
end

section
/-! The host's request builders, and the ids they send as little-endian pairs (43_command_catalog.md R180,
R181). -/

namespace Sys2Proof.Machine

theorem idsLe16_length (ids : List (BitVec 16)) : (idsLe16 ids).length = 2 * ids.length := by
  induction ids with
  | nil => rfl
  | cons id rest ih => simp only [idsLe16, List.length_cons, ih]; omega

/-- The pair of the id at `i`, low byte first (R181). -/
theorem idsLe16_getElem? {ids : List (BitVec 16)} {i : Nat} (h : i < ids.length) :
    (idsLe16 ids)[2 * i]? = some (lo8 (ids.getD i 0).toNat)
    ∧ (idsLe16 ids)[2 * i + 1]? = some (hi8 (ids.getD i 0).toNat) := by
  induction ids generalizing i with
  | nil => cases h
  | cons id rest ih =>
    cases i with
    | zero => exact ⟨rfl, rfl⟩
    | succ i => exact ih (Nat.lt_of_succ_lt_succ h)

/-- A row that is the shared operation with its opcode, sent over a list of ids: 32767 ids are the most whose
pairs fit a payload. -/
theorem sendsIds_of_passFrame {row : FrameForm → Instr} {op : Byte}
    (hrow : ∀ form s, exec (row form) s = passFrame op form s) {s : State} (hb : s.tx.busy = false)
    (ids : List (BitVec 16)) :
    (ids.length ≤ 32767 → ∃ frame, encodeFrame Config.sof op (idsLe16 ids) = .ok frame
      ∧ exec (row (.send (idsLe16 ids))) s = .next { s with tx := .idleWith (s.tx.out ++ frame) })
    ∧ (32767 < ids.length →
      exec (row (.send (idsLe16 ids))) s = .next { s with tx := { s.tx with status := .payloadTooLong } }) := by
  have hlen := idsLe16_length ids
  exact ⟨fun hfit => sendsFrame_of_passFrame hrow s _ hb (by omega),
    fun hlong => (sendTurnedAway_of_passFrame hrow s _).2 hb (by omega)⟩

/-- Settles O30: each builder is its opcode's row, over the pairs of its ids or over nothing. -/
theorem requestBuildersSend : Obligations.RequestBuildersSend := by
  intro s ids hb
  refine ⟨idsLe16_length ids, fun i => idsLe16_getElem?, fun build op h => ?withIds, fun build op h => ?without⟩
  all_goals
    simp only [List.mem_cons, List.not_mem_nil, or_false, Prod.mk.injEq] at h
    obtain ⟨rfl, rfl⟩ | ⟨rfl, rfl⟩ | ⟨rfl, rfl⟩ := h
  case withIds.inl | withIds.inr.inl | withIds.inr.inr => exact sendsIds_of_passFrame (fun _ _ => rfl) hb ids
  case without.inl | without.inr.inl | without.inr.inr =>
    exact sendsFrame_of_passFrame (fun _ _ => rfl) s [] hb (Nat.zero_le _)

end Sys2Proof.Machine
end

section
/-! The receive status as a view of the two result registers (60_exceptions.md R203, 10_state.md R36). -/

namespace Sys2Proof.Machine

/-- Settles O11: the receive status is the view of the unit's own `RX_DSTAT` and `RX_CSOK`. -/
theorem statusViewPriority : Obligations.StatusViewPriority :=
  fun rx => rxStatusOf_code rx.dstat rx.csok

end Sys2Proof.Machine
end

section
/-! `RST` in the middle of anything, and the event sequences that are refused (70_reset_and_hazards.md R230,
R232, R240; 41_encoder.md R127). -/

namespace Sys2Proof.Machine

/-- `TX_START` in `TX_DATA` (R127). -/
theorem exec_txStart_of_busy {s : State} (hb : s.tx.busy = true) (op : Byte) (n : BitVec 32) :
    exec (.txStart op n) s = .refused .txStartWhileBusy :=
  if_pos hb

/-- `TX_PAYLOAD` in `TX_IDLE` (R127). -/
theorem exec_txPayload_of_idle {s : State} (hb : s.tx.busy = false) (b : Byte) :
    exec (.txPayload b) s = .refused .txPayloadWhileIdle :=
  if_neg (by simp [hb])

/-- Settles O6: each event where it is not legal. -/
theorem txProtocolBreachIsRefused : Obligations.TxProtocolBreachIsRefused :=
  fun _ => ⟨exec_txStart_of_busy, exec_txPayload_of_idle⟩

/-- `RST` keeps the bytes emitted and fixes the rest of the TX unit (R230, R232). -/
theorem TxUnit.clear_eq_idleWith (tx : TxUnit) : tx.clear = .idleWith tx.out := rfl

/-- `RST` leaves the RX unit between chunks (R39, R230). -/
theorem RxUnit.idle_cleared (tick : Nat) : (RxUnit.cleared tick).idle := ⟨rfl, rfl⟩

/-- Settles O3: both units are as between two frames, so a `RECV` and a `SEND` give what they give there; of
the state before, only `TX_OUT` and the count of free values drawn are left. -/
theorem rstAbandonsWorkInProgress : Obligations.RstAbandonsWorkInProgress := by
  intro s
  have hrst := exec_rst s
  rw [TxUnit.clear_eq_idleWith] at hrst
  refine ⟨_, hrst, rfl, rfl, rfl, rfl, rfl, rfl, rfl, rfl, rfl, rfl, rfl, ?recv, ?send, ?leftovers⟩
  case recv =>
    exact fun b => ⟨_, runInstrs_recv b _, RxUnit.shows_chunk b _ (RxUnit.idle_cleared s.freeTick)⟩
  case send =>
    exact fun op p hp => ⟨_, _, encodeFrame_ok Config.sof op p hp, runInstrs_send op p _ rfl hp, rfl⟩
  case leftovers =>
    intro s' htick
    exact ⟨_, exec_rst s', congrArg RxUnit.cleared htick, rfl⟩

end Sys2Proof.Machine
end
